-- ==== Sys2Proof/Word.lean ====
section
/-! DEFINITION. The word types of the machine (00_scope.md R5, R6): every value is an unsigned bit
vector of the width the spec gives it. Arithmetic on them is Lean's own: modulo 2^width, as
44_alu.md R170 asks of register values. -/

namespace Sys2Proof

/-- A byte: a general register, a memory cell, a timer, the field kk. -/
abbrev Byte := BitVec 8

/-- A 16-bit word: PC, IR, a return address, an instruction. -/
abbrev Word := BitVec 16

/-- A 4-bit field: a register number, a key number, the row count n of Dxyn. -/
abbrev Nibble := BitVec 4

/-- The 12-bit field nnn, an absolute memory address. -/
abbrev Addr := BitVec 12

end Sys2Proof
end

