-- ==== Sys2Proof/Machine/Flags.lean ====
section
/-! DEFINITION. The values VF receives as a flag (10_state.md R36, 44_alu.md R170). VF is the only
flag of the machine (R21): a whole register that receives 0 or 1. -/

namespace Sys2Proof.Machine

/-- A condition as the byte a flag holds. -/
def flagByte (c : Bool) : Byte := if c then 1 else 0

/-- Carry out of bit 7 of the widened sum: 1 if the sum exceeds 255 (R175). -/
def carryFlag (a b : Byte) : Byte := flagByte (decide (a.toNat + b.toNat > 255))

/-- Not borrow of minuend - subtrahend: 1 if minuend >= subtrahend (R176, R178). -/
def notBorrowFlag (minuend subtrahend : Byte) : Byte :=
  flagByte (decide (minuend.toNat ≥ subtrahend.toNat))

/-- The bit a right shift by one moves out: bit 0 (R177). -/
def shiftOutRight (a : Byte) : Byte := a &&& 1

/-- The bit a left shift by one moves out: bit 7 (R179). -/
def shiftOutLeft (a : Byte) : Byte := (a >>> 7) &&& 1

end Sys2Proof.Machine
end

