-- ==== Sys2Proof/Config.lean ====
section
/-! DEFINITION. The parameters of 00_scope.md R5: the fixed ones as constants, the type of the argument
FONT, and the free value of the argument RAND. The default of FONT and the flagged
RESET_ZERO_START are in Machine/Params.lean. -/

namespace Sys2Proof.Config

/-- MEM_TOP: the highest legal address (R5, R62). -/
def memTop : Nat := 0xFFF

/-- STACK_DEPTH (R5, R24). -/
def stackDepth : Nat := 16

/-- DISP_W (R5, R25). -/
def dispW : Nat := 64

/-- DISP_H (R5, R25). -/
def dispH : Nat := 32

/-- PROG_BASE: the load address of the program and the value of PC after power-on and reset (R5). -/
def progBase : Nat := 0x200

/-- ROM_MAX: the largest image the host may load (R5, R254). -/
def romMax : Nat := 0xE00

/-- FONT_BASE: the first byte of the glyph font (R5, R38). -/
def fontBase : Nat := 0x50

/-- FONT_END: the last byte of the glyph font (R5, R38). -/
def fontEnd : Nat := 0x9F

/-- GLYPH_STRIDE: bytes per glyph (R5, R38). -/
def glyphStride : Nat := 5

/-- One glyph: 5 sprite rows, top row first (R38). -/
abbrev Glyph := Vector Byte 5

/-- A glyph font: the parameter FONT, 16 glyphs of 5 bytes, glyph d the digit d (R5, R38). -/
abbrev Font := Vector Glyph 16

/-- FREE VALUE (log 3): the byte the random-byte provider answers to draw number n (R162, R261,
D17). "The source promises nothing of the values": it has no body, so nothing can be proved of it. -/
opaque randByte : Nat → Byte

end Sys2Proof.Config
end

