-- ==== Sys2Proof/Syntax.lean ====
section
/-! DEFINITION. The instructions: one constructor per row of spec/opcode_table.json, in the table's
order (30_encoding.md R94). Operands are the fields of R91 at their own width. The fields a row
decodes but its instruction ignores are kept (n of 5xy0 and 9xy0, R99; y of 8xy6 and 8xyE, R96),
so that no bit of a word is lost. -/

namespace Sys2Proof

inductive Instr where
  /-- 00E0 -/
  | cls
  /-- 00EE -/
  | ret
  /-- 1nnn -/
  | jp (nnn : Addr)
  /-- 2nnn -/
  | call (nnn : Addr)
  /-- 3xkk -/
  | seImm (x : Nibble) (kk : Byte)
  /-- 4xkk -/
  | sneImm (x : Nibble) (kk : Byte)
  /-- 5xy0; n is ignored -/
  | seReg (x y n : Nibble)
  /-- 6xkk -/
  | ldImm (x : Nibble) (kk : Byte)
  /-- 7xkk -/
  | addImm (x : Nibble) (kk : Byte)
  /-- 8xy0 -/
  | ldReg (x y : Nibble)
  /-- 8xy1 -/
  | orReg (x y : Nibble)
  /-- 8xy2 -/
  | andReg (x y : Nibble)
  /-- 8xy3 -/
  | xorReg (x y : Nibble)
  /-- 8xy4 -/
  | addReg (x y : Nibble)
  /-- 8xy5 -/
  | sub (x y : Nibble)
  /-- 8xy6; y is ignored -/
  | shr (x y : Nibble)
  /-- 8xy7 -/
  | subn (x y : Nibble)
  /-- 8xyE; y is ignored -/
  | shl (x y : Nibble)
  /-- 9xy0; n is ignored -/
  | sneReg (x y n : Nibble)
  /-- Annn -/
  | ldI (nnn : Addr)
  /-- Bnnn -/
  | jpV0 (nnn : Addr)
  /-- Cxkk -/
  | rnd (x : Nibble) (kk : Byte)
  /-- Dxyn -/
  | drw (x y n : Nibble)
  /-- Ex9E -/
  | skp (x : Nibble)
  /-- ExA1 -/
  | sknp (x : Nibble)
  /-- Fx07 -/
  | ldVxDT (x : Nibble)
  /-- Fx0A -/
  | ldVxK (x : Nibble)
  /-- Fx15 -/
  | ldDT (x : Nibble)
  /-- Fx18 -/
  | ldST (x : Nibble)
  /-- Fx1E -/
  | addI (x : Nibble)
  /-- Fx29 -/
  | ldF (x : Nibble)
  /-- Fx33 -/
  | ldB (x : Nibble)
  /-- Fx55 -/
  | stRegs (x : Nibble)
  /-- Fx65 -/
  | ldRegs (x : Nibble)
  deriving DecidableEq, Repr

end Sys2Proof
end

