-- ==== Sys2Proof/WellFormed.lean ====
section
/-! DEFINITION. Well-formedness. Every operand of Instr is a bit vector of exactly the width of its
field (30_encoding.md R91, R93), so every term of Instr is an instruction of the machine and
Instr needs no check: nothing is assumed of an instruction in any statement. Two checks remain.
`Instr.canonical` says which terms an assembler emits (R96, R99, R104); the others run all the
same. `romFits` says which images the host may load (R254). -/

namespace Sys2Proof

/-- The canonical encodings: n = 0 in 5xy0 and 9xy0 (R99), y = 0 or y = x in 8xy6 and 8xyE (R96). -/
def Instr.canonical : Instr → Bool
  | .seReg _ _ n => n == 0
  | .sneReg _ _ n => n == 0
  | .shr x y => y == 0 || y == x
  | .shl x y => y == 0 || y == x
  | _ => true

/-- An image the host may load: at most 0xE00 bytes (R254, U11). -/
def romFits (bytes : List Byte) : Bool := bytes.length ≤ Config.romMax

end Sys2Proof
end

