-- ==== Sys2Proof/Decode.lean ====
section
/-! DEFINITION. The decoder (30_encoding.md R90 to R106), total on every list of bytes and
rejecting by name, then the encoder, written from the same table. -/

namespace Sys2Proof

/-! The six extraction functions of R91. -/

/-- `opcode_group(w)`: w[15:12]. -/
def opcodeGroup (w : Word) : Nibble := w.extractLsb' 12 4

/-- `x(w)`: w[11:8]. -/
def fieldX (w : Word) : Nibble := w.extractLsb' 8 4

/-- `y(w)`: w[7:4]. -/
def fieldY (w : Word) : Nibble := w.extractLsb' 4 4

/-- `n(w)`: w[3:0], the sub-selector `end_id` of group 8. -/
def fieldN (w : Word) : Nibble := w.extractLsb' 0 4

/-- `nnn(w)`: w[11:0]. -/
def fieldNNN (w : Word) : Addr := w.extractLsb' 0 12

/-- `kk(w)`: w[7:0], the sub-selector `two_end_id` of groups E and F. -/
def fieldKK (w : Word) : Byte := w.extractLsb' 0 8

/-- Group 0: the whole word is matched (R95, D2). -/
def decodeGroup0 (w : Word) : Option Instr :=
  if w = 0x00E0 then some .cls
  else if w = 0x00EE then some .ret
  else none

/-- Group 8: the sub-selector is n (R96). -/
def decodeGroup8 (x y n : Nibble) : Option Instr :=
  if n = 0x0 then some (.ldReg x y)
  else if n = 0x1 then some (.orReg x y)
  else if n = 0x2 then some (.andReg x y)
  else if n = 0x3 then some (.xorReg x y)
  else if n = 0x4 then some (.addReg x y)
  else if n = 0x5 then some (.sub x y)
  else if n = 0x6 then some (.shr x y)
  else if n = 0x7 then some (.subn x y)
  else if n = 0xE then some (.shl x y)
  else none

/-- Group E: the sub-selector is kk (R97). -/
def decodeGroupE (x : Nibble) (kk : Byte) : Option Instr :=
  if kk = 0x9E then some (.skp x)
  else if kk = 0xA1 then some (.sknp x)
  else none

/-- Group F: the sub-selector is kk (R98). -/
def decodeGroupF (x : Nibble) (kk : Byte) : Option Instr :=
  if kk = 0x07 then some (.ldVxDT x)
  else if kk = 0x0A then some (.ldVxK x)
  else if kk = 0x15 then some (.ldDT x)
  else if kk = 0x18 then some (.ldST x)
  else if kk = 0x1E then some (.addI x)
  else if kk = 0x29 then some (.ldF x)
  else if kk = 0x33 then some (.ldB x)
  else if kk = 0x55 then some (.stRegs x)
  else if kk = 0x65 then some (.ldRegs x)
  else none

/-- The instruction a word stands for, none when the word is undefined (R94, R101). Dispatch is on
the group first, then on the sub-selector of groups 0, 8, E and F. -/
def decodeWord (w : Word) : Option Instr :=
  match opcodeGroup w with
  | 0x0#4 => decodeGroup0 w
  | 0x1#4 => some (.jp (fieldNNN w))
  | 0x2#4 => some (.call (fieldNNN w))
  | 0x3#4 => some (.seImm (fieldX w) (fieldKK w))
  | 0x4#4 => some (.sneImm (fieldX w) (fieldKK w))
  | 0x5#4 => some (.seReg (fieldX w) (fieldY w) (fieldN w))
  | 0x6#4 => some (.ldImm (fieldX w) (fieldKK w))
  | 0x7#4 => some (.addImm (fieldX w) (fieldKK w))
  | 0x8#4 => decodeGroup8 (fieldX w) (fieldY w) (fieldN w)
  | 0x9#4 => some (.sneReg (fieldX w) (fieldY w) (fieldN w))
  | 0xA#4 => some (.ldI (fieldNNN w))
  | 0xB#4 => some (.jpV0 (fieldNNN w))
  | 0xC#4 => some (.rnd (fieldX w) (fieldKK w))
  | 0xD#4 => some (.drw (fieldX w) (fieldY w) (fieldN w))
  | 0xE#4 => decodeGroupE (fieldX w) (fieldKK w)
  | 0xF#4 => decodeGroupF (fieldX w) (fieldKK w)
  | _ => none

/-- Why a list of bytes is no instruction. -/
inductive DecodeReject where
  /-- fewer than the two bytes every instruction has (R90) -/
  | tooShort
  /-- the word matches no row of the opcode map (R101) -/
  | undefinedInstruction (w : Word)
  deriving DecidableEq, Repr

/-- What decoding a list of bytes gives: the instruction and the bytes after it, or a rejection. -/
inductive Decoded where
  | instr (i : Instr) (rest : List Byte)
  | rejected (why : DecodeReject)
  deriving DecidableEq, Repr

/-- `a ++ b` on two bytes: the word of R63 and R90, the first byte the more significant. -/
def joinBytes (hi lo : Byte) : Word := hi ++ lo

/-- The decoder on bytes as they lie in memory, the first at the lowest address (R90). -/
def decode : List Byte → Decoded
  | hi :: lo :: rest =>
    match decodeWord (joinBytes hi lo) with
    | some i => .instr i rest
    | none => .rejected (.undefinedInstruction (joinBytes hi lo))
  | _ => .rejected .tooShort

/-- The two bytes of a word as memory holds them: more significant first (R63, R90). -/
def wordBytes (w : Word) : List Byte := [w.extractLsb' 8 8, w.extractLsb' 0 8]

/-- The instruction the decoder reads from a word numbered as spec/opcode_table.json numbers it. -/
def decodeTableWord (nbits w : Nat) : Option Instr :=
  match decode (wordBytes (BitVec.ofNat 16 (w % 2 ^ nbits))) with
  | .instr i _ => some i
  | .rejected _ => none

/-! The encoder. -/

/-- Format NNN (R92). -/
def wordNNN (g : Nibble) (nnn : Addr) : Word := g ++ nnn

/-- Formats XKK and XF (R92): in XF the byte kk is the function. -/
def wordXKK (g x : Nibble) (kk : Byte) : Word := g ++ x ++ kk

/-- Formats XY, XYF and XYN (R92): in XYF the nibble n is the function. -/
def wordXYN (g x y n : Nibble) : Word := g ++ x ++ y ++ n

/-- The word of an instruction (R92, R94). -/
def encode : Instr → Word
  | .cls => 0x00E0
  | .ret => 0x00EE
  | .jp nnn => wordNNN 0x1 nnn
  | .call nnn => wordNNN 0x2 nnn
  | .seImm x kk => wordXKK 0x3 x kk
  | .sneImm x kk => wordXKK 0x4 x kk
  | .seReg x y n => wordXYN 0x5 x y n
  | .ldImm x kk => wordXKK 0x6 x kk
  | .addImm x kk => wordXKK 0x7 x kk
  | .ldReg x y => wordXYN 0x8 x y 0x0
  | .orReg x y => wordXYN 0x8 x y 0x1
  | .andReg x y => wordXYN 0x8 x y 0x2
  | .xorReg x y => wordXYN 0x8 x y 0x3
  | .addReg x y => wordXYN 0x8 x y 0x4
  | .sub x y => wordXYN 0x8 x y 0x5
  | .shr x y => wordXYN 0x8 x y 0x6
  | .subn x y => wordXYN 0x8 x y 0x7
  | .shl x y => wordXYN 0x8 x y 0xE
  | .sneReg x y n => wordXYN 0x9 x y n
  | .ldI nnn => wordNNN 0xA nnn
  | .jpV0 nnn => wordNNN 0xB nnn
  | .rnd x kk => wordXKK 0xC x kk
  | .drw x y n => wordXYN 0xD x y n
  | .skp x => wordXKK 0xE x 0x9E
  | .sknp x => wordXKK 0xE x 0xA1
  | .ldVxDT x => wordXKK 0xF x 0x07
  | .ldVxK x => wordXKK 0xF x 0x0A
  | .ldDT x => wordXKK 0xF x 0x15
  | .ldST x => wordXKK 0xF x 0x18
  | .addI x => wordXKK 0xF x 0x1E
  | .ldF x => wordXKK 0xF x 0x29
  | .ldB x => wordXKK 0xF x 0x33
  | .stRegs x => wordXKK 0xF x 0x55
  | .ldRegs x => wordXKK 0xF x 0x65

/-! The columns match and mask of the opcode map, copied from R94, for the laws that hold the
decoder and the encoder against it. -/

/-- `w & mask = match` (R94). -/
structure Row where
  mask : Word
  pattern : Word
  deriving DecidableEq, Repr

/-- A word is this row's instruction (R94). -/
def Row.matches (r : Row) (w : Word) : Bool := w &&& r.mask == r.pattern

/-- The row of an instruction (R94). -/
def tableRow : Instr → Row
  | .cls => ⟨0xFFFF, 0x00E0⟩
  | .ret => ⟨0xFFFF, 0x00EE⟩
  | .jp _ => ⟨0xF000, 0x1000⟩
  | .call _ => ⟨0xF000, 0x2000⟩
  | .seImm _ _ => ⟨0xF000, 0x3000⟩
  | .sneImm _ _ => ⟨0xF000, 0x4000⟩
  | .seReg _ _ _ => ⟨0xF000, 0x5000⟩
  | .ldImm _ _ => ⟨0xF000, 0x6000⟩
  | .addImm _ _ => ⟨0xF000, 0x7000⟩
  | .ldReg _ _ => ⟨0xF00F, 0x8000⟩
  | .orReg _ _ => ⟨0xF00F, 0x8001⟩
  | .andReg _ _ => ⟨0xF00F, 0x8002⟩
  | .xorReg _ _ => ⟨0xF00F, 0x8003⟩
  | .addReg _ _ => ⟨0xF00F, 0x8004⟩
  | .sub _ _ => ⟨0xF00F, 0x8005⟩
  | .shr _ _ => ⟨0xF00F, 0x8006⟩
  | .subn _ _ => ⟨0xF00F, 0x8007⟩
  | .shl _ _ => ⟨0xF00F, 0x800E⟩
  | .sneReg _ _ _ => ⟨0xF000, 0x9000⟩
  | .ldI _ => ⟨0xF000, 0xA000⟩
  | .jpV0 _ => ⟨0xF000, 0xB000⟩
  | .rnd _ _ => ⟨0xF000, 0xC000⟩
  | .drw _ _ _ => ⟨0xF000, 0xD000⟩
  | .skp _ => ⟨0xF0FF, 0xE09E⟩
  | .sknp _ => ⟨0xF0FF, 0xE0A1⟩
  | .ldVxDT _ => ⟨0xF0FF, 0xF007⟩
  | .ldVxK _ => ⟨0xF0FF, 0xF00A⟩
  | .ldDT _ => ⟨0xF0FF, 0xF015⟩
  | .ldST _ => ⟨0xF0FF, 0xF018⟩
  | .addI _ => ⟨0xF0FF, 0xF01E⟩
  | .ldF _ => ⟨0xF0FF, 0xF029⟩
  | .ldB _ => ⟨0xF0FF, 0xF033⟩
  | .stRegs _ => ⟨0xF0FF, 0xF055⟩
  | .ldRegs _ => ⟨0xF0FF, 0xF065⟩

/-- The 34 rows of R94, in its order. -/
def opcodeRows : List Row :=
  [.cls, .ret, .jp 0, .call 0, .seImm 0 0, .sneImm 0 0, .seReg 0 0 0, .ldImm 0 0, .addImm 0 0,
   .ldReg 0 0, .orReg 0 0, .andReg 0 0, .xorReg 0 0, .addReg 0 0, .sub 0 0, .shr 0 0, .subn 0 0,
   .shl 0 0, .sneReg 0 0 0, .ldI 0, .jpV0 0, .rnd 0 0, .drw 0 0 0, .skp 0, .sknp 0, .ldVxDT 0,
   .ldVxK 0, .ldDT 0, .ldST 0, .addI 0, .ldF 0, .ldB 0, .stRegs 0, .ldRegs 0].map tableRow

end Sys2Proof
end

