-- ==== Sys2Proof/Machine/Params.lean ====
section
/-! DEFINITION. The two parameters of 00_scope.md R5 whose values the spec itself does not vouch for:
the default of the argument FONT, and RESET_ZERO_START. -/

namespace Sys2Proof.Config

/-- RESET_ZERO_START: a warm reset zeroes from here to MEM_TOP (R5, R323; 90_conflicts.md C6). -/
def resetZeroStart : Nat := 0xA2

/-- `FONT[k]` for k from 0 to 79: row k mod 5 of glyph k div 5 (R38). -/
def fontByte (font : Font) (k : Nat) : Byte :=
  match font[k / glyphStride]? with
  | some glyph => (glyph[k % glyphStride]?).getD 0
  | none => 0

/-- The default of FONT (10_state.md R38). PRESUMED: the source gives no font bytes (N1, D15) and
the table is general knowledge (G1), so a machine carries its own font (State.font, log 2). -/
def defaultFont : Font := #v[
  #v[0xF0, 0x90, 0x90, 0x90, 0xF0], #v[0x20, 0x60, 0x20, 0x20, 0x70],
  #v[0xF0, 0x10, 0xF0, 0x80, 0xF0], #v[0xF0, 0x10, 0xF0, 0x10, 0xF0],
  #v[0x90, 0x90, 0xF0, 0x10, 0x10], #v[0xF0, 0x80, 0xF0, 0x10, 0xF0],
  #v[0xF0, 0x80, 0xF0, 0x90, 0xF0], #v[0xF0, 0x10, 0x20, 0x40, 0x40],
  #v[0xF0, 0x90, 0xF0, 0x90, 0xF0], #v[0xF0, 0x90, 0xF0, 0x10, 0xF0],
  #v[0xF0, 0x90, 0xF0, 0x90, 0x90], #v[0xE0, 0x90, 0xE0, 0x90, 0xE0],
  #v[0xF0, 0x80, 0x80, 0x80, 0xF0], #v[0xE0, 0x90, 0x90, 0x90, 0xE0],
  #v[0xF0, 0x80, 0xF0, 0x80, 0xF0], #v[0xF0, 0x80, 0xF0, 0x80, 0x80]]

end Sys2Proof.Config
end

