-- ==== Sys2Proof/Machine/State.lean ====
section
/-! DEFINITION. The state of the core (10_state.md R20 to R30), as plain data, with the parameter
FONT it was built with and the inputs of the two agents outside it (00_scope.md R15); and its
value at power-on. -/

namespace Sys2Proof.Machine

/-- The error kinds (60_exceptions.md R280): the first four are the source's, the fifth the
spec's own (R285, D9). "The name is the code" (D5). -/
inductive ErrorKind where
  | undefinedInstruction
  | stackOverflow
  | stackUnderflow
  | addressOutOfBounds
  | keyIndexOutOfRange
  deriving DecidableEq, Repr

/-- RUN (10_state.md R29). -/
inductive RunState where
  | running
  /-- the wait of an Fx0A whose destination is V[x] (R222) -/
  | awaitingKey (x : Nibble)
  /-- a fatal error has ended the run (R286, D4) -/
  | faulted (kind : ErrorKind)
  deriving DecidableEq, Repr

/-- FINFO (10_state.md R30, 60_exceptions.md R286, D5). -/
structure FaultInfo where
  /-- the address the faulting cycle fetched from -/
  pc : Word
  /-- the instruction word, if it had been formed -/
  word : Option Word
  /-- the offending address or key index, where the kind carries one -/
  addr : Option Nat
  deriving DecidableEq, Repr

/-- The operations of the host (50_host_interface.md R251) after power_on, which is State.reset. -/
inductive HostOp where
  /-- R255 -/
  | cycle
  /-- R253 -/
  | reset
  /-- R254 -/
  | loadRom (bytes : List Byte)
  /-- R256 -/
  | keyDown (k : Nibble)
  /-- R257 -/
  | keyUp (k : Nibble)
  /-- R257 -/
  | clearKeys
  /-- R259: the host reads the display -/
  | display
  /-- R260: the host reads any other state -/
  | observe
  deriving DecidableEq, Repr

/-- Memory as (address, byte) pairs in one canonical form: addresses strictly rising, none equal to
what the address reads as when it is not listed. The operations are in Machine/Ops.lean. -/
abbrev Memory := List Host.Cell

/-- The display buffer: 32 rows of 64 one-bit cells (R25). Row y, column x is bit x of row y; a bit
that is 1 is a lit pixel. The cells are reached by DISP's own index (State.pixel, State.setPixel). -/
abbrev Grid := Vector (BitVec 64) 32

structure State where
  /-- V[0] to V[15] (R20); VF is V[15] (R21) -/
  v : Vector Byte 16
  /-- IR (R22) -/
  ir : Word
  /-- PC (R23) -/
  pc : Word
  /-- the call stack, most recent entry first; SP is its length (R24, D16) -/
  stack : List Word
  /-- DISP, the cell of column x and row y at y*64+x (R25) -/
  disp : Grid
  /-- KEY (R26) -/
  key : Vector Bool 16
  /-- DT (R27) -/
  dt : Byte
  /-- ST (R27) -/
  st : Byte
  /-- MEM (R28) -/
  mem : Memory
  /-- RUN (R29) -/
  run : RunState
  /-- FINFO (R30): none while RUN is not Faulted -/
  finfo : Option FaultInfo
  /-- the parameter FONT of this machine (R5, R32, R38): no step changes it -/
  font : Config.Font
  /-- the next answers of the random-byte provider, oldest first (R261); past them the answers
  are the free value Config.randByte -/
  draws : List Byte
  /-- how many draws have been made; the argument of Config.randByte -/
  drawCount : Nat
  /-- what the host does next, oldest first (R251, R265); when it lists nothing the host invokes
  cycle() -/
  script : List HostOp
  /-- no cycle has begun since power-on or reset: load_rom is allowed (R251, R254) -/
  loadOpen : Bool
  deriving DecidableEq, Repr

/-- Reasons a step stops with a fault: none. The spec describes the state after each of the five
errors (60_exceptions.md R286, R287), so a step that raises one answers a next state, whose RUN
is Faulted (log 5). Nobody raises a Fault: safe. -/
inductive Fault
  deriving DecidableEq, Repr

/-- Reasons a step is refused. -/
inductive Refusal where
  /-- Raised by exec's arm of an instruction without a meaning: safe. No arm raises it. -/
  | notModelled (mnemonic : String)
  /-- Raised by the host operation load_rom with more than 0xE00 bytes, "a caller-side loading
  error" the core defines no behaviour for (R254, U11): safe. -/
  | romTooLarge
  /-- Raised by the host operation load_rom after the first cycle, which the spec gives no meaning
  (R254, D21, U19): safe. -/
  | loadAfterFirstCycle
  deriving DecidableEq, Repr

/-- What a step answers. -/
abbrev Result := Host.Outcome State Fault Refusal

/-- The machine after power_on() (10_state.md R33, 70_reset_and_hazards.md R321). Memory lists
nothing: an unlisted address reads as its power-on byte. FINFO and the last five fields are the
model's (log 2, 3, 4, 6, 9). -/
def State.reset : State where
  v := Vector.replicate 16 0
  ir := 0
  pc := BitVec.ofNat 16 Config.progBase
  stack := []
  disp := Vector.replicate 32 0
  key := Vector.replicate 16 false
  dt := 0
  st := 0
  mem := []
  run := .running
  finfo := none
  font := Config.defaultFont
  draws := []
  drawCount := 0
  script := []
  loadOpen := true

end Sys2Proof.Machine
end

