-- ==== Sys2Proof/Machine/Ops.lean ====
section
/-! DEFINITION. The named operations over registers, memory, stack, display and keypad; fault entry
(60_exceptions.md R286) and, beside it, the only way out of a fault, reset (R297). Every read and
write of the machine goes through these. -/

namespace Sys2Proof.Machine

/-! ### Registers -/

/-- The register VF (R21). -/
def vf : Nibble := 0xF

/-- `V[x]` (R20). -/
def State.getV (s : State) (x : Nibble) : Byte := s.v[x.toNat]'(x.isLt)

/-- `V[x] <- b` (R20). -/
def State.setV (x : Nibble) (b : Byte) (s : State) : State := { s with v := s.v.set x.toNat b x.isLt }

/-- `IR <- a` (R22). -/
def State.setIr (a : Word) (s : State) : State := { s with ir := a }

/-- `PC <- a` (R23). -/
def State.setPc (a : Word) (s : State) : State := { s with pc := a }

/-- `DT <- b` (R27). -/
def State.setDt (b : Byte) (s : State) : State := { s with dt := b }

/-- `ST <- b` (R27). -/
def State.setSt (b : Byte) (s : State) : State := { s with st := b }

/-- `RUN <- r` (R29). -/
def State.setRun (r : RunState) (s : State) : State := { s with run := r }

/-- `skip()`: 2 is added to the already advanced PC, modulo 65536 (R150). -/
def State.skip (s : State) : State := s.setPc (s.pc + 2)

/-- Skip when the condition holds (R150). -/
def State.skipIf (c : Bool) (s : State) : State := if c then s.skip else s

/-! ### Fault entry and the return from a fault -/

/-- Fault entry (R286): RUN becomes Faulted and the record is written: the PC at the start of the
cycle, the word if it had been formed, the address or index if the kind carries one. Nothing else
changes. -/
def State.enterFault (kind : ErrorKind) (pc0 : Word) (word : Option Word) (addr : Option Nat)
    (s : State) : State :=
  { s with run := .faulted kind, finfo := some ⟨pc0, word, addr⟩ }

/-- `raise kind(addr)` inside the execute step of instruction i (R11, R286). The cycle fetched from
PC - 2, since PC has been advanced by 2 (R130), and the word it fetched is i's (log 7). -/
def State.raise (kind : ErrorKind) (i : Instr) (addr : Option Nat) (s : State) : State :=
  s.enterFault kind (s.pc - 2) (some (encode i)) addr

/-- The memory after a reset (R323): FONT restored and RESET_ZERO_START to 0xFFF zeroed, which are
the bytes those addresses read as unlisted; 0x000 to 0x04F and 0x0A0, 0x0A1 stay as they are. -/
def Memory.afterReset (m : Memory) : Memory :=
  m.filter fun c => c.1 < Config.fontBase || (Config.fontEnd < c.1 && c.1 < Config.resetZeroStart)

/-- `reset()` (R253, R322): the power-on values, but for the memory bytes a reset keeps, the
parameter FONT and the inputs still to come. The only exit from Faulted (R297). -/
def State.warmReset (s : State) : State :=
  { State.reset with
    mem := Memory.afterReset s.mem
    font := s.font
    draws := s.draws
    drawCount := s.drawCount
    script := s.script }

/-! ### Memory -/

/-- What an address reads as when it is not listed: its byte at power-on (R33, R61), FONT from 0x050
to 0x09F and zero elsewhere. -/
def Memory.unlisted (font : Config.Font) (a : Nat) : Byte :=
  if Config.fontBase ≤ a then Config.fontByte font (a - Config.fontBase) else 0

/-- The byte at an address. -/
def Memory.read (font : Config.Font) : Memory → Nat → Byte
  | [], a => Memory.unlisted font a
  | (b, u) :: rest, a => if a = b then u else Memory.read font rest a

/-- One cell put before a memory whose addresses all lie above it, unless it need not be listed. -/
def Memory.cons (font : Config.Font) (a : Nat) (x : Byte) (m : Memory) : Memory :=
  if x = Memory.unlisted font a then m else (a, x) :: m

/-- The memory with the byte at an address replaced, in canonical form. -/
def Memory.write (font : Config.Font) (a : Nat) (x : Byte) : Memory → Memory
  | [] => Memory.cons font a x []
  | (b, u) :: rest =>
    if a < b then Memory.cons font a x ((b, u) :: rest)
    else if a = b then Memory.cons font a x rest
    else (b, u) :: Memory.write font a x rest

/-- Consecutive bytes written from an address on, in rising order. -/
def Memory.writeAll (font : Config.Font) : Nat → List Byte → Memory → Memory
  | _, [], m => m
  | a, x :: xs, m => Memory.writeAll font (a + 1) xs (Memory.write font a x m)

/-- The canonical form: addresses strictly rising from `low`, inside the memory, and no cell equal
to what its address reads as unlisted. -/
def Memory.wfFrom (font : Config.Font) : Nat → Memory → Bool
  | _, [] => true
  | low, (a, x) :: rest =>
    decide (low ≤ a) && decide (a ≤ Config.memTop) && (x != Memory.unlisted font a)
      && Memory.wfFrom font (a + 1) rest

/-- The canonical form of a memory (R60). -/
def Memory.wf (font : Config.Font) (m : Memory) : Bool := Memory.wfFrom font 0 m

/-- The byte of MEM at an address, as an observer reads it (R260). -/
def State.byteAt (s : State) (a : Nat) : Byte := Memory.read s.font s.mem a

/-- `MemRead(addr, 1)`: none where it raises AddressOutOfBounds(addr) (R62). -/
def State.memRead (s : State) (a : Nat) : Option Byte :=
  if a > Config.memTop then none else some (s.byteAt a)

/-- `MemWrite(addr, 1, x)`: none where it raises AddressOutOfBounds(addr) (R62). -/
def State.memWrite (a : Nat) (x : Byte) (s : State) : Option State :=
  if a > Config.memTop then none else some { s with mem := Memory.write s.font a x s.mem }

/-- Instruction i stores bytes at rising addresses, each with MemWrite; the first address above
0xFFF raises, and the bytes before it stay written (R65, R287, D6). -/
def State.storeBytes (i : Instr) : Nat → List Byte → State → State
  | _, [], s => s
  | a, x :: xs, s =>
    match s.memWrite a x with
    | some t => State.storeBytes i (a + 1) xs t
    | none => s.raise .addressOutOfBounds i (some a)

/-- Instruction i loads registers from rising addresses, each with MemRead; the first address above
0xFFF raises, and the registers before it stay loaded (R242, R287, D6). -/
def State.loadBytes (i : Instr) : Nat → List Nibble → State → State
  | _, [], s => s
  | a, x :: xs, s =>
    match s.memRead a with
    | some b => State.loadBytes i (a + 1) xs (s.setV x b)
    | none => s.raise .addressOutOfBounds i (some a)

/-! ### Call stack -/

/-- SP: the number of valid entries (R24). -/
def State.sp (s : State) : Nat := s.stack.length

/-- `STACK[i]`, for i below SP (R24): entry 0 is the oldest. -/
def State.stackEntry (s : State) (i : Nat) : Option Word := s.stack.reverse[i]?

/-- `push(a)`: none where it raises StackOverflow (R24). -/
def State.push (a : Word) (s : State) : Option State :=
  if s.sp ≥ Config.stackDepth then none else some { s with stack := a :: s.stack }

/-- `pop()`: the popped entry and the state without it, none where it raises StackUnderflow (R24). -/
def State.pop (s : State) : Option (Word × State) :=
  match s.stack with
  | [] => none
  | a :: rest => some (a, { s with stack := rest })

/-! ### Display and keypad -/

/-- A cell of the grid by its index `y*64+x` (R25). -/
def Grid.get (d : Grid) (i : Nat) : Bool :=
  match d[i / Config.dispW]? with
  | some row => row.getLsbD (i % Config.dispW)
  | none => false

/-- One row with column x set or cleared. -/
def rowPut (row : BitVec 64) (x : Nat) (p : Bool) : BitVec 64 :=
  if p then row ||| ((1 : BitVec 64) <<< x) else row &&& ~~~((1 : BitVec 64) <<< x)

/-- The grid with the cell of index i set or cleared (R25). -/
def Grid.put (d : Grid) (i : Nat) (p : Bool) : Grid :=
  match d[i / Config.dispW]? with
  | some row => d.setIfInBounds (i / Config.dispW) (rowPut row (i % Config.dispW) p)
  | none => d

/-- `DISP[i]` (R25). -/
def State.pixel (s : State) (i : Nat) : Bool := Grid.get s.disp i

/-- `DISP[i] <- p` (R25). -/
def State.setPixel (i : Nat) (p : Bool) (s : State) : State := { s with disp := Grid.put s.disp i p }

/-- Every cell of DISP cleared (R200). -/
def State.clearDisplay (s : State) : State := { s with disp := Vector.replicate 32 0 }

/-- `KEY[k]` (R26). -/
def State.keyAt (s : State) (k : Nibble) : Bool := s.key[k.toNat]'(k.isLt)

/-- `KEY[k] <- p` (R26). -/
def State.setKey (k : Nibble) (p : Bool) (s : State) : State :=
  { s with key := s.key.set k.toNat p k.isLt }

/-! ### The random-byte provider -/

/-- `draw()`: one call of RAND (R12, R261): the provider's next answer and the state after the
call. -/
def State.draw (s : State) : Byte × State :=
  match s.draws with
  | [] => (Config.randByte s.drawCount, { s with drawCount := s.drawCount + 1 })
  | b :: rest => (b, { s with draws := rest, drawCount := s.drawCount + 1 })

end Sys2Proof.Machine
end

