-- ==== Sys2Proof/Machine/Operands.lean ====
section
/-! DEFINITION. The operand forms (30_encoding.md R93): registers Vx and Vy are State.getV; the
immediates, the addresses formed from IR and V0, the block V0 to Vx, the decimal digits and the
key index are here. Nothing is sign-extended, scaled or shifted. -/

namespace Sys2Proof.Machine

/-- `zext_16(nnn)`: an absolute address (R93). -/
def absAddr (nnn : Addr) : Word := nnn.zeroExtend 16

/-- `zext_16(b)` of a register value. -/
def wide (b : Byte) : Word := b.zeroExtend 16

/-- `zext_8(k)` of a key number (R222). -/
def keyByte (k : Nibble) : Byte := k.zeroExtend 8

/-- The jump target `nnn + V0` of Bnnn, not reduced to 12 bits (R143). -/
def State.targetV0 (nnn : Addr) (s : State) : Word := absAddr nnn + wide (s.getV 0)

/-- The memory address IR as the unbounded number effective addresses count from (R72). -/
def State.base (s : State) : Nat := s.ir.toNat

/-- The glyph address `0x50 + 5 * Vx`, Vx not reduced to its low nibble (R192). -/
def glyphAddr (b : Byte) : Word := BitVec.ofNat 16 (Config.fontBase + Config.glyphStride * b.toNat)

/-- The registers V0 to Vx, in rising order (R93, R241, R242). -/
def regsUpTo (x : Nibble) : List Nibble := (List.range (x.toNat + 1)).map (BitVec.ofNat 4)

/-- The hundreds, tens and units of a value (R240). -/
def decimalDigits (b : Byte) : List Byte :=
  [BitVec.ofNat 8 (b.toNat / 100), BitVec.ofNat 8 (b.toNat / 10 % 10), BitVec.ofNat 8 (b.toNat % 10)]

/-- `keyidx(v)`: the key a register value names, none where it raises KeyIndexOutOfRange(v) (R223,
D9). -/
def keyIndex (b : Byte) : Option Nibble :=
  if b.toNat > 15 then none else some (b.setWidth 4)

end Sys2Proof.Machine
end

