-- ==== Sys2Proof/Machine/Alu.lean ====
section
/-! DEFINITION. Register-to-register operations (44_alu.md R170 to R181). Operands are read before
anything is written; where VF is written too, the two writes keep the order of the rule, which
decides the outcome when x is 15 (R36, R180). -/

namespace Sys2Proof.Machine

/-- 8xy0, LD Vx, Vy (R171). -/
def execLdReg (x y : Nibble) (s : State) : Result := .next (s.setV x (s.getV y))

/-- 8xy1, OR Vx, Vy (R172). -/
def execOrReg (x y : Nibble) (s : State) : Result := .next (s.setV x (s.getV x ||| s.getV y))

/-- 8xy2, AND Vx, Vy (R173). -/
def execAndReg (x y : Nibble) (s : State) : Result := .next (s.setV x (s.getV x &&& s.getV y))

/-- 8xy3, XOR Vx, Vy (R174). -/
def execXorReg (x y : Nibble) (s : State) : Result := .next (s.setV x (s.getV x ^^^ s.getV y))

/-- A result to Vx, then a flag to VF: the order of 8xy4, 8xy5 and 8xy7 (R36). -/
def State.resultThenFlag (x : Nibble) (result flag : Byte) (s : State) : State :=
  (s.setV x result).setV vf flag

/-- 8xy4, ADD Vx, Vy (R175). -/
def execAddReg (x y : Nibble) (s : State) : Result :=
  .next (s.resultThenFlag x (s.getV x + s.getV y) (carryFlag (s.getV x) (s.getV y)))

/-- 8xy5, SUB Vx, Vy (R176). -/
def execSub (x y : Nibble) (s : State) : Result :=
  .next (s.resultThenFlag x (s.getV x - s.getV y) (notBorrowFlag (s.getV x) (s.getV y)))

/-- 8xy7, SUBN Vx, Vy (R178). -/
def execSubn (x y : Nibble) (s : State) : Result :=
  .next (s.resultThenFlag x (s.getV y - s.getV x) (notBorrowFlag (s.getV y) (s.getV x)))

/-- A flag to VF, then Vx, read as it then stands, shifted: the two sequential statements of 8xy6
and 8xyE (R180, D19). -/
def State.flagThenShift (x : Nibble) (flag : Byte) (left : Bool) (s : State) : State :=
  let t := s.setV vf flag
  t.setV x (if left then t.getV x <<< 1 else t.getV x >>> 1)

/-- 8xy6, SHR Vx (R177): y is not used. -/
def execShr (x _y : Nibble) (s : State) : Result :=
  .next (s.flagThenShift x (shiftOutRight (s.getV x)) false)

/-- 8xyE, SHL Vx (R179): y is not used. -/
def execShl (x _y : Nibble) (s : State) : Result :=
  .next (s.flagThenShift x (shiftOutLeft (s.getV x)) true)

end Sys2Proof.Machine
end

