-- ==== Sys2Proof/Machine/ConstRandom.lean ====
section
/-! DEFINITION. Constants and the random byte (43_const_random.md R160 to R162). -/

namespace Sys2Proof.Machine

/-- 6xkk, LD Vx, kk (R160). -/
def execLdImm (x : Nibble) (kk : Byte) (s : State) : Result := .next (s.setV x kk)

/-- 7xkk, ADD Vx, kk (R161): modulo 256, no flag. -/
def execAddImm (x : Nibble) (kk : Byte) (s : State) : Result := .next (s.setV x (s.getV x + kk))

/-- Cxkk, RND Vx, kk (R162): exactly one draw; Vx takes its byte AND kk. -/
def execRnd (x : Nibble) (kk : Byte) (s : State) : Result :=
  .next (s.draw.2.setV x (s.draw.1 &&& kk))

end Sys2Proof.Machine
end

