-- ==== Sys2Proof/Machine/Display.lean ====
section
/-! DEFINITION. Display operations (46_display.md R200 to R202): the sprite engine with its wrap of
the start position, its clipping at the right and bottom edges and its collision flag. -/

namespace Sys2Proof.Machine

/-- The cell of column cx and row cy (R25). -/
def cellIndex (cx cy : Nat) : Nat := cy * Config.dispW + cx

/-- 00E0, CLS (R200): VF is not written. -/
def execCls (s : State) : Result := .next s.clearDisplay

/-- A sprite bit 1 on cell i (R201): a set cell is cleared and VF becomes 1, a clear cell is set. -/
def State.plot (i : Nat) (s : State) : State :=
  if s.pixel i then (s.setPixel i false).setV vf 1 else s.setPixel i true

/-- The columns c, c+1, ... of one sprite row, `k` of them left (R201): at column 63 the rest is
dropped; a bit 0 changes nothing. -/
def State.drawColumns (b : Byte) (xpos cy : Nat) : Nat → Nat → State → State
  | 0, _, s => s
  | k + 1, c, s =>
    if c + xpos > 63 then s
    else
      State.drawColumns b xpos cy k (c + 1)
        (if b.getLsbD (7 - c) then s.plot (cellIndex (c + xpos) cy) else s)

/-- The rows r, r+1, ... of the sprite of instruction i at address base, `k` of them left (R201):
below row 31 they are dropped unread (D18); the byte of each other row is read with MemRead, and a
fault leaves the rows before it drawn (R287). -/
def State.drawRows (i : Instr) (base xpos ypos : Nat) : Nat → Nat → State → State
  | 0, _, s => s
  | k + 1, r, s =>
    if r + ypos > 31 then s
    else
      match s.memRead (base + r) with
      | none => s.raise .addressOutOfBounds i (some (base + r))
      | some b => State.drawRows i base xpos ypos k (r + 1) (s.drawColumns b xpos (r + ypos) 8 0)

/-- The start column `Vx mod 64` (R201). -/
def startColumn (b : Byte) : Nat := b.toNat % 64

/-- The start row `Vy mod 32` (R201). -/
def startRow (b : Byte) : Nat := b.toNat % 32

/-- Dxyn, DRW Vx, Vy, n (R201): the coordinates are read, then VF is cleared, then the rows are
drawn. -/
def execDrw (x y n : Nibble) (s : State) : Result :=
  .next (State.drawRows (.drw x y n) s.base (startColumn (s.getV x)) (startRow (s.getV y))
    n.toNat 0 (s.setV vf 0))

end Sys2Proof.Machine
end

