-- ==== Sys2Proof/Machine/Flow.lean ====
section
/-! DEFINITION. Jumps, calls and returns (41_flow.md). PC is the already advanced PC (R130). -/

namespace Sys2Proof.Machine

/-- 00EE, RET (R140): the check precedes every write. -/
def execRet (s : State) : Result :=
  match s.pop with
  | none => .next (s.raise .stackUnderflow .ret none)
  | some (a, t) => .next (t.setPc a)

/-- 1nnn, JP nnn (R141). -/
def execJp (nnn : Addr) (s : State) : Result := .next (s.setPc (absAddr nnn))

/-- 2nnn, CALL nnn (R142): the check precedes every write, and the value pushed is the advanced
PC. -/
def execCall (nnn : Addr) (s : State) : Result :=
  match s.push s.pc with
  | none => .next (s.raise .stackOverflow (.call nnn) none)
  | some t => .next (t.setPc (absAddr nnn))

/-- Bnnn, JP V0, nnn (R143). -/
def execJpV0 (nnn : Addr) (s : State) : Result := .next (s.setPc (s.targetV0 nnn))

end Sys2Proof.Machine
end

