-- ==== Sys2Proof/Machine/Index.lean ====
section
/-! DEFINITION. Index register operations (45_index.md R190 to R193). None accesses memory. -/

namespace Sys2Proof.Machine

/-- Annn, LD I, nnn (R190). -/
def execLdI (nnn : Addr) (s : State) : Result := .next (s.setIr (absAddr nnn))

/-- Fx1E, ADD I, Vx (R191): modulo 65536 (D8), no flag. -/
def execAddI (x : Nibble) (s : State) : Result := .next (s.setIr (s.ir + wide (s.getV x)))

/-- Fx29, LD F, Vx (R192). -/
def execLdF (x : Nibble) (s : State) : Result := .next (s.setIr (glyphAddr (s.getV x)))

end Sys2Proof.Machine
end

