-- ==== Sys2Proof/Machine/Keypad.lean ====
section
/-! DEFINITION. Keypad operations (47_keypad.md R220 to R223). The arrival of the key that ends a
wait is a host operation (Machine/HostOps.lean, R256). -/

namespace Sys2Proof.Machine

/-- Ex9E, SKP Vx (R220). -/
def execSkp (x : Nibble) (s : State) : Result :=
  match keyIndex (s.getV x) with
  | none => .next (s.raise .keyIndexOutOfRange (.skp x) (some (s.getV x).toNat))
  | some k => .next (s.skipIf (s.keyAt k))

/-- ExA1, SKNP Vx (R221). -/
def execSknp (x : Nibble) (s : State) : Result :=
  match keyIndex (s.getV x) with
  | none => .next (s.raise .keyIndexOutOfRange (.sknp x) (some (s.getV x).toNat))
  | some k => .next (s.skipIf (!s.keyAt k))

/-- Fx0A, LD Vx, K (R222): the cycle only enters the wait; nothing else changes. -/
def execLdVxK (x : Nibble) (s : State) : Result := .next (s.setRun (.awaitingKey x))

end Sys2Proof.Machine
end

