-- ==== Sys2Proof/Machine/MemoryOps.lean ====
section
/-! DEFINITION. Memory operations (49_memory_ops.md R240 to R243). IR is never changed. -/

namespace Sys2Proof.Machine

/-- Fx33, LD B, Vx (R240). -/
def execLdB (x : Nibble) (s : State) : Result :=
  .next (State.storeBytes (.ldB x) s.base (decimalDigits (s.getV x)) s)

/-- Fx55, LD [I], Vx (R241). No store changes a register, so the block is read first. -/
def execStRegs (x : Nibble) (s : State) : Result :=
  .next (State.storeBytes (.stRegs x) s.base ((regsUpTo x).map s.getV) s)

/-- Fx65, LD Vx, [I] (R242). -/
def execLdRegs (x : Nibble) (s : State) : Result :=
  .next (State.loadBytes (.ldRegs x) s.base (regsUpTo x) s)

end Sys2Proof.Machine
end

