-- ==== Sys2Proof/Machine/Skip.lean ====
section
/-! DEFINITION. Conditional skips on registers (42_skip.md R150 to R154). -/

namespace Sys2Proof.Machine

/-- 3xkk, SE Vx, kk (R151). -/
def execSeImm (x : Nibble) (kk : Byte) (s : State) : Result := .next (s.skipIf (s.getV x == kk))

/-- 4xkk, SNE Vx, kk (R152). -/
def execSneImm (x : Nibble) (kk : Byte) (s : State) : Result := .next (s.skipIf (s.getV x != kk))

/-- 5xy0, SE Vx, Vy (R153); the low nibble is ignored (R99). -/
def execSeReg (x y _n : Nibble) (s : State) : Result := .next (s.skipIf (s.getV x == s.getV y))

/-- 9xy0, SNE Vx, Vy (R154); the low nibble is ignored (R99). -/
def execSneReg (x y _n : Nibble) (s : State) : Result := .next (s.skipIf (s.getV x != s.getV y))

end Sys2Proof.Machine
end

