-- ==== Sys2Proof/Machine/Timers.lean ====
section
/-! DEFINITION. Timer operations (48_timers.md R230 to R233). The tick of every cycle has been made
before the execute step (40_cycle.md R123). -/

namespace Sys2Proof.Machine

/-- Fx07, LD Vx, DT (R230). -/
def execLdVxDT (x : Nibble) (s : State) : Result := .next (s.setV x s.dt)

/-- Fx15, LD DT, Vx (R231). -/
def execLdDT (x : Nibble) (s : State) : Result := .next (s.setDt (s.getV x))

/-- Fx18, LD ST, Vx (R232). -/
def execLdST (x : Nibble) (s : State) : Result := .next (s.setSt (s.getV x))

end Sys2Proof.Machine
end

