-- ==== Sys2Proof/Machine/Cycle.lean ====
section
/-! DEFINITION. One cycle of the core (40_cycle.md): fetch, PC advance, timer tick, execute. -/

namespace Sys2Proof.Machine

/-- What a fetch gives: the word, or the address that raised AddressOutOfBounds. -/
abbrev Fetched := Word ⊕ Nat

/-- The fetch (R121): the byte at PC, then the byte at PC+1, the sum not wrapped (R72). -/
def State.fetch (s : State) : Fetched :=
  match s.memRead s.pc.toNat with
  | none => .inr s.pc.toNat
  | some hi =>
    match s.memRead (s.pc.toNat + 1) with
    | none => .inr (s.pc.toNat + 1)
    | some lo => .inl (joinBytes hi lo)

/-- The PC advance (R122, D23). The first cycle closes the host's chance to load (R254). -/
def State.advance (s : State) : State := { s with pc := s.pc + 2, loadOpen := false }

/-- One timer's decrement: by 1 while greater than 0 (R123). -/
def tickTimer (b : Byte) : Byte := if b = 0 then 0 else b - 1

/-- The tick of both timers (R123). -/
def State.tick (s : State) : State := { s with dt := tickTimer s.dt, st := tickTimer s.st }

/-- The state the execute step sees: PC advanced, timers ticked (R124). -/
def State.ready (s : State) : State := s.advance.tick

/-- A cycle in Running (R125). A fetch fault precedes the advance and the tick (R121); an undefined
word faults after them (R101, R128). -/
def runningCycle (s : State) : Result :=
  match s.fetch with
  | .inr a => .next (s.enterFault .addressOutOfBounds s.pc none (some a))
  | .inl w =>
    match decodeWord w with
    | none => .next (s.ready.enterFault .undefinedInstruction s.pc (some w) none)
    | some i => exec i s.ready

/-- `cycle()` (R120, R255): in AwaitingKey and in Faulted it changes nothing (R126, R127). -/
def cycle (s : State) : Result :=
  match s.run with
  | .running => runningCycle s
  | .awaitingKey _ => .next s
  | .faulted _ => .next s

end Sys2Proof.Machine
end

