-- ==== Sys2Proof/Machine/HostOps.lean ====
section
/-! DEFINITION. The host's side (50_host_interface.md): its operations, each indivisible and
between cycles (R251, R265), and how the reference host makes key events (R262, R266). -/

namespace Sys2Proof.Machine

/-- `load_rom(bytes)` (R254): refused after the first cycle (U19) and for more than 0xE00 bytes
(U11). -/
def loadRom (bytes : List Byte) (s : State) : Result :=
  if !s.loadOpen then .refused .loadAfterFirstCycle
  else if !romFits bytes then .refused .romTooLarge
  else .next { s with mem := Memory.writeAll s.font Config.progBase bytes s.mem }

/-- `key_down(k)` (R256): sets the flag, and ends a key wait with Vx = k. -/
def keyDown (k : Nibble) (s : State) : State :=
  match s.run with
  | .awaitingKey x => ((s.setKey k true).setV x (keyByte k)).setRun .running
  | .running => s.setKey k true
  | .faulted _ => s.setKey k true

/-- `key_up(k)` (R257). -/
def keyUp (k : Nibble) (s : State) : State := s.setKey k false

/-- `clear_keys()` (R257). -/
def clearKeys (s : State) : State := { s with key := Vector.replicate 16 false }

/-- `display()` (R259): the snapshot the host reads, index cy*64+cx. -/
def State.snapshot (s : State) : List Bool := (List.range (Config.dispW * Config.dispH)).map s.pixel

/-- One operation of the host (R251). Reading (display, observers) changes nothing (R259, R260). -/
def perform (op : HostOp) (s : State) : Result :=
  match op with
  | .cycle => cycle s
  | .reset => .next s.warmReset
  | .loadRom bytes => loadRom bytes s
  | .keyDown k => .next (keyDown k s)
  | .keyUp k => .next (keyUp k s)
  | .clearKeys => .next (clearKeys s)
  | .display => .next s
  | .observe => .next s

/-- The script without its first operation. -/
def State.popScript (s : State) : State := { s with script := s.script.tail }

/-- The next thing that happens to the machine (R265): the host's next operation, and cycle() when
the script lists none (log 4). -/
def hostStep (s : State) : Result :=
  match s.script with
  | [] => cycle s
  | op :: _ => perform op s.popScript

/-- The key a key of the reference host's keyboard maps to (R262, outside the core: R4 (c)). -/
def hostKeymap : List (Char × Nibble) :=
  [('1', 0x1), ('2', 0x2), ('3', 0x3), ('4', 0xC), ('q', 0x4), ('w', 0x5), ('e', 0x6), ('r', 0xD),
   ('a', 0x7), ('s', 0x8), ('d', 0x9), ('f', 0xE), ('z', 0xA), ('x', 0x0), ('c', 0xB), ('v', 0xF)]

/-- The key event of a host key, none when it maps to no keypad key (R256, R262). -/
def hostKeyEvent (c : Char) : Option HostOp := (hostKeymap.lookup c).map .keyDown

/-- What the input provider's three answers are as events (R266, D11): key value, no-data and
end-of-input. -/
def inputEvent (answer : Option Nibble) : Option HostOp := answer.map .keyDown

/-- Two bytes of a word stored at an address by whatever loads a program: for withFetchWord. -/
def State.placeWord (a : Nat) (w : Word) (s : State) : State :=
  { s with mem := Memory.writeAll s.font a (wordBytes w) s.mem }

/-- The state made ready to fetch: Running, no host operation before the cycle, PC at a fetchable
address (its own where that is fetchable). -/
def State.readyToFetch (s : State) : State :=
  { s with
    run := .running
    script := []
    pc := if s.pc.toNat < Config.memTop then s.pc else BitVec.ofNat 16 Config.progBase }

/-- withFetchWord's body (Machine/Step.lean). -/
def placeFetchWord (s : State) (nbits w : Nat) : State :=
  s.readyToFetch.placeWord s.readyToFetch.pc.toNat (BitVec.ofNat 16 (w % 2 ^ nbits))

end Sys2Proof.Machine
end

