-- ==== Sys2Proof/Machine/Step.lean ====
section
/-! DEFINITION. One step of the machine, and the placing of one instruction where the step fetches
its next one. -/

namespace Sys2Proof.Machine

/-- One step: the host's next operation, cycle() when none is listed (R265; log 4). -/
def step (s : State) : Host.Outcome State Fault Refusal := hostStep s

/-- s with a word stored where step fetches its next instruction: what the host's load_rom does
for a program's first word, done at PC. -/
def State.withFetchWord (s : State) (nbits w : Nat) : State := placeFetchWord s nbits w

end Sys2Proof.Machine
end

