-- ==== Sys2Proof/Safety.lean ====
section
/-! DEFINITION. The terms in which claims are stated: what a step that goes on leaves, which part of
the state an instruction may change, which states are consistent, and which runs are safe. -/

namespace Sys2Proof.Machine

/-! ### Fault-free states (60_exceptions.md R297) -/

/-- RUN is Faulted. -/
def RunState.isFaulted : RunState → Bool
  | .running => false
  | .awaitingKey _ => false
  | .faulted _ => true

/-- A safe state: no fatal error has ended the run. "A fault is never a successful end" (R267). -/
def State.safe (s : State) : Bool := !s.run.isFaulted

/-! ### Consistent states (10_state.md R39, R24, R30) -/

/-- Memory is in canonical form. -/
abbrev State.MemOk (s : State) : Prop := Memory.wf s.font s.mem = true

/-- SP is in 0 to 16 and every entry is a PC value held just after an advance (R24, R39). -/
abbrev State.StackOk (s : State) : Prop :=
  s.stack.length ≤ Config.stackDepth ∧ ∀ a ∈ s.stack, a.toNat ≤ 0x1000

/-- PC never exceeds 0x10FE (R39). -/
abbrev State.PcOk (s : State) : Prop := s.pc.toNat ≤ 0x10FE

/-- There is a fault record exactly when RUN is Faulted (R30). -/
abbrev State.RecordOk (s : State) : Prop := s.finfo.isSome = s.run.isFaulted

/-- The record holds what its kind carries (R280): for AddressOutOfBounds an address above 0xFFF, for
KeyIndexOutOfRange an index from 16 to 255, for the other kinds none; and the word unless the
fetch itself faulted, which only AddressOutOfBounds can be, and which is so exactly when the
recorded PC is above 0xFFE (R284). -/
def FaultInfo.fits (kind : ErrorKind) (f : FaultInfo) : Bool :=
  match kind with
  | .addressOutOfBounds =>
    (f.word.isSome == decide (f.pc.toNat + 1 ≤ Config.memTop)) &&
    match f.addr with
    | some a => decide (Config.memTop < a)
    | none => false
  | .keyIndexOutOfRange =>
    f.word.isSome &&
    match f.addr with
    | some a => decide (15 < a) && decide (a < 256)
    | none => false
  | .undefinedInstruction => f.word.isSome && f.addr.isNone
  | .stackOverflow => f.word.isSome && f.addr.isNone
  | .stackUnderflow => f.word.isSome && f.addr.isNone

/-- The fault record fits the kind of the fault (R280). -/
abbrev State.RecordFits (s : State) : Prop :=
  ∀ kind, s.run = .faulted kind → ∃ f, s.finfo = some f ∧ f.fits kind = true

/-- Before the first cycle PC is 0x200 and the core is Running (R254, R33). -/
abbrev State.LoadOk (s : State) : Prop :=
  s.loadOpen = true → s.pc = BitVec.ofNat 16 Config.progBase ∧ s.run = .running

/-- A consistent state. -/
abbrev State.Inv (s : State) : Prop :=
  s.MemOk ∧ s.StackOk ∧ s.PcOk ∧ s.RecordOk ∧ s.LoadOk

/-! ### Frames: everything but the named parts is as before

Each says so twice over for memory: as data, and through the read of one byte. -/

/-- Every byte of memory reads as before. -/
abbrev SameBytes (s t : State) : Prop := ∀ a, t.byteAt a = s.byteAt a

/-- Nothing but general registers may differ. -/
abbrev OnlyV (s t : State) : Prop := t = { s with v := t.v } ∧ SameBytes s t

/-- Nothing but PC may differ. -/
abbrev OnlyPc (s t : State) : Prop := t = { s with pc := t.pc } ∧ SameBytes s t

/-- Nothing but IR may differ. -/
abbrev OnlyIr (s t : State) : Prop := t = { s with ir := t.ir } ∧ SameBytes s t

/-- Nothing but the call stack and PC may differ. -/
abbrev OnlyStackPc (s t : State) : Prop := t = { s with stack := t.stack, pc := t.pc } ∧ SameBytes s t

/-- Nothing but the display may differ. -/
abbrev OnlyDisp (s t : State) : Prop := t = { s with disp := t.disp } ∧ SameBytes s t

/-- Nothing but the display and the register VF may differ. -/
abbrev OnlyDispVf (s t : State) : Prop :=
  t = { s with disp := t.disp, v := t.v } ∧ (∀ r, r ≠ vf → t.getV r = s.getV r) ∧ SameBytes s t

/-- Nothing but the bytes of memory from `lo` to `hi - 1` may differ. -/
abbrev OnlyBytes (lo hi : Nat) (s t : State) : Prop :=
  t = { s with mem := t.mem } ∧ ∀ a, ¬ (lo ≤ a ∧ a < hi) → t.byteAt a = s.byteAt a

/-- A state in which `kind` has been raised, with its record, over the state `u` (R286). -/
abbrev RaisedOver (u : State) (kind : ErrorKind) (i : Instr) (addr : Option Nat) (t : State) : Prop :=
  t = { u with run := .faulted kind, finfo := some ⟨u.pc - 2, some (encode i), addr⟩ }

/-- The decoder reads instruction `f w` from exactly the words with `w & mask = pattern` (R94). -/
abbrev EncodedAs (mask pattern : Word) (f : Word → Instr) : Prop :=
  ∀ w, decodeWord w = some (f w) ↔ w &&& mask = pattern

end Sys2Proof.Machine
end

