-- ==== Sys2Proof/Certificates/Slice0/Obligations.lean ====
section
/-! DEFINITION. The statements for the provers. Each docstring names the rule or the sections of spec/
it formalises, and the log entry of every choice it rests on. "Answers a next state" is the
conclusion of every statement about an instruction: no premise mentions what exec answers. -/

section

open Sys2Proof Sys2Proof.Machine

/-! ### Encoding -/

/-- Words written out from the patterns of the opcode map and read as they lie in memory, one or
more of each family, and four undefined words (95_test_vectors.md 2.1, 30_encoding.md R91, R94). -/
def Obligations.SampleWordsDecode : Prop :=
  decodeTableWord 16 0x00E0 = some .cls ∧
  decodeTableWord 16 0x00EE = some .ret ∧
  decodeTableWord 16 0x1234 = some (.jp 0x234) ∧
  decodeTableWord 16 0x332A = some (.seImm 0x3 0x2A) ∧
  decodeTableWord 16 0x5AB7 = some (.seReg 0xA 0xB 0x7) ∧
  decodeTableWord 16 0xC30F = some (.rnd 0x3 0x0F) ∧
  decodeTableWord 16 0x8AB4 = some (.addReg 0xA 0xB) ∧
  decodeTableWord 16 0x8126 = some (.shr 0x1 0x2) ∧
  decodeTableWord 16 0xA123 = some (.ldI 0x123) ∧
  decodeTableWord 16 0xD015 = some (.drw 0x0 0x1 0x5) ∧
  decodeTableWord 16 0xE59E = some (.skp 0x5) ∧
  decodeTableWord 16 0xF315 = some (.ldDT 0x3) ∧
  decodeTableWord 16 0xF065 = some (.ldRegs 0x0) ∧
  decodeTableWord 16 0x0000 = none ∧
  decodeTableWord 16 0x8AB9 = none ∧
  decodeTableWord 16 0xE0A2 = none ∧
  decodeTableWord 16 0xFFFF = none

/-- Decoding the word of any instruction, and its two bytes as memory holds them, gives that
instruction, whatever its operands: no bit of an encoding is dropped (30_encoding.md 1 and 2). -/
def Obligations.DecodeOfEncodeIsTheInstruction : Prop :=
  ∀ i : Instr, decodeWord (encode i) = some i ∧
    ∀ rest, decode (wordBytes (encode i) ++ rest) = .instr i rest

/-- A word that decodes is the word of the term it decodes to (30_encoding.md 1 and 2), so two words
never stand for one term. For 5xyN, 9xyN, 8xy6 and 8xyE that rests on the model's choice to keep the
ignored nibble in the constructor (log 11): to the spec the words that differ there are one
instruction. -/
def Obligations.EncodeOfDecodeIsTheWord : Prop :=
  ∀ (w : Word) (i : Instr), decodeWord w = some i → encode i = w

/-- The decoder is the opcode map: a word decodes to an instruction of row r exactly when
`w & mask = match` for r, a word that no row matches does not decode, and no two rows overlap
(30_encoding.md 2). -/
def Obligations.DecoderIsTheOpcodeMap : Prop :=
  (∀ w i, decodeWord w = some i → (tableRow i).matches w = true) ∧
  (∀ w, (∃ r ∈ opcodeRows, r.matches w = true) → ∃ i, decodeWord w = some i) ∧
  (∀ w, ∀ r ∈ opcodeRows, ∀ r' ∈ opcodeRows, r.matches w = true → r'.matches w = true → r = r')

/-- Groups 0xE and 0xF: the sub-selector is kk, with the values given and no other, so 254 and 247
values of kk are undefined for each of the 16 values of x (30_encoding.md R97, R98). -/
def Obligations.GroupsEAndFSelectOnKk : Prop :=
  (∀ x kk, decodeWord (wordXKK 0xE x kk) =
    if kk = 0x9E then some (.skp x) else if kk = 0xA1 then some (.sknp x) else none) ∧
  (∀ x kk, decodeWord (wordXKK 0xF x kk) =
    if kk = 0x07 then some (.ldVxDT x) else if kk = 0x0A then some (.ldVxK x)
    else if kk = 0x15 then some (.ldDT x) else if kk = 0x18 then some (.ldST x)
    else if kk = 0x1E then some (.addI x) else if kk = 0x29 then some (.ldF x)
    else if kk = 0x33 then some (.ldB x) else if kk = 0x55 then some (.stRegs x)
    else if kk = 0x65 then some (.ldRegs x) else none) ∧
  ∀ x,
    (List.range 256).countP (fun k => (decodeWord (wordXKK 0xE x (BitVec.ofNat 8 k))).isNone) = 254 ∧
    (List.range 256).countP (fun k => (decodeWord (wordXKK 0xF x (BitVec.ofNat 8 k))).isNone) = 247

/-- Group 8: the sub-selector is n, seven values of n are undefined for each of the 256 pairs x, y,
8xy6 and 8xyE do not use y, and their canonical encodings are those with y = 0 or y = x
(30_encoding.md R96). -/
def Obligations.Group8SelectsOnN : Prop :=
  (∀ x y n, decodeWord (wordXYN 0x8 x y n) =
    if n = 0x0 then some (.ldReg x y) else if n = 0x1 then some (.orReg x y)
    else if n = 0x2 then some (.andReg x y) else if n = 0x3 then some (.xorReg x y)
    else if n = 0x4 then some (.addReg x y) else if n = 0x5 then some (.sub x y)
    else if n = 0x6 then some (.shr x y) else if n = 0x7 then some (.subn x y)
    else if n = 0xE then some (.shl x y) else none) ∧
  (∀ x y, (List.range 16).countP
    (fun n => (decodeWord (wordXYN 0x8 x y (BitVec.ofNat 4 n))).isNone) = 7) ∧
  (∀ x y y' s, exec (.shr x y) s = exec (.shr x y') s ∧ exec (.shl x y) s = exec (.shl x y') s) ∧
  (∀ x y, ((Instr.shr x y).canonical = true ↔ y = 0 ∨ y = x) ∧
    ((Instr.shl x y).canonical = true ↔ y = 0 ∨ y = x))

/-- In groups 1, 2, 3, 4, 6, 7, 0xA, 0xB, 0xC and 0xD the group alone selects, the other twelve
bits are operands, and every word is defined; and all sixteen groups are recognised
(30_encoding.md R100). -/
def Obligations.OperandGroupsAlwaysDecode : Prop :=
  (∀ a, decodeWord (wordNNN 0x1 a) = some (.jp a) ∧ decodeWord (wordNNN 0x2 a) = some (.call a) ∧
    decodeWord (wordNNN 0xA a) = some (.ldI a) ∧ decodeWord (wordNNN 0xB a) = some (.jpV0 a)) ∧
  (∀ x kk, decodeWord (wordXKK 0x3 x kk) = some (.seImm x kk) ∧
    decodeWord (wordXKK 0x4 x kk) = some (.sneImm x kk) ∧
    decodeWord (wordXKK 0x6 x kk) = some (.ldImm x kk) ∧
    decodeWord (wordXKK 0x7 x kk) = some (.addImm x kk) ∧
    decodeWord (wordXKK 0xC x kk) = some (.rnd x kk)) ∧
  (∀ x y n, decodeWord (wordXYN 0xD x y n) = some (.drw x y n)) ∧
  (∀ w, opcodeGroup w ∈ ([0x1, 0x2, 0x3, 0x4, 0x6, 0x7, 0xA, 0xB, 0xC, 0xD] : List Nibble) →
    (decodeWord w).isSome = true) ∧
  (∀ g : Nibble, ∃ w, opcodeGroup w = g ∧ (decodeWord w).isSome = true)

/-- Group 0 matches the whole word (30_encoding.md 2, the spec's decision D2; log 10), and groups 5
and 9 look at the group alone and ignore n (90_conflicts.md C2, the spec's decision D3; log 11). -/
def Obligations.Groups0And5And9Decode : Prop :=
  (∀ a, decodeWord (wordNNN 0x0 a) =
    if a = 0x0E0 then some .cls else if a = 0x0EE then some .ret else none) ∧
  (∀ x y n, decodeWord (wordXYN 0x5 x y n) = some (.seReg x y n) ∧
    decodeWord (wordXYN 0x9 x y n) = some (.sneReg x y n)) ∧
  (∀ x y n n' s, exec (.seReg x y n) s = exec (.seReg x y n') s ∧
    exec (.sneReg x y n) s = exec (.sneReg x y n') s)

/-! ### The cycle -/

/-- A step runs the decoded instruction: when the host's next operation is a cycle (no operation
listed, or cycle() first), the core is Running and the two bytes at PC decode to i, the step is
exec of i on the state with PC advanced by 2, both timers ticked, and the operation used up
(40_cycle.md). That an empty script stands for cycle() and that the first cycle closes loading
(loadOpen) are the model's choices, log 4 and 9. -/
def Obligations.StepRunsTheDecodedInstruction : Prop :=
  (∀ (s : State) (i : Instr), s.script = [] → s.run = .running → s.pc.toNat ≤ 0xFFE →
    decodeWord (joinBytes (s.byteAt s.pc.toNat) (s.byteAt (s.pc.toNat + 1))) = some i →
    step s = exec i { s with
      pc := s.pc + 2, dt := tickTimer s.dt, st := tickTimer s.st, loadOpen := false }) ∧
  (∀ (s : State) (rest : List HostOp), s.script = .cycle :: rest →
    step s = cycle { s with script := rest }) ∧
  (∀ s : State, s.script = [] → step s = cycle s)

/-- An undefined word raises UndefinedInstruction after the advance and the tick, and a fetch above
0xFFE raises AddressOutOfBounds with nothing else changed (40_cycle.md, 60_exceptions.md). The
state Faulted and its record are the spec's decisions D4 and D5, log 5 and 6. That a step with an
empty script is cycle(), and that the cycle closes loading (loadOpen), are the model's choices,
log 4 and 9. -/
def Obligations.FetchAndDispatchFaults : Prop :=
  (∀ s : State, s.script = [] → s.run = .running → s.pc.toNat ≤ 0xFFE →
    ∀ w, w = joinBytes (s.byteAt s.pc.toNat) (s.byteAt (s.pc.toNat + 1)) → decodeWord w = none →
    step s = .next { s with
      pc := s.pc + 2, dt := tickTimer s.dt, st := tickTimer s.st, loadOpen := false,
      run := .faulted .undefinedInstruction, finfo := some ⟨s.pc, some w, none⟩ }) ∧
  (∀ s : State, s.script = [] → s.run = .running → 0xFFE < s.pc.toNat →
    step s = .next { s with
      run := .faulted .addressOutOfBounds,
      finfo := some ⟨s.pc, none, some (max s.pc.toNat 0x1000)⟩ })

/-- A cycle in AwaitingKey or in Faulted changes nothing (40_cycle.md; the spec's decisions D24 and
D4, log 5 and 17). That a step with an empty script is cycle() is the model's choice, log 4. -/
def Obligations.IdleCyclesChangeNothing : Prop :=
  (∀ (s : State) x, s.run = .awaitingKey x → cycle s = .next s) ∧
  (∀ (s : State) k, s.run = .faulted k → cycle s = .next s) ∧
  (∀ s : State, s.script = [] → s.run ≠ .running → step s = .next s)

/-- Each timer goes down by 1, floored at 0, once in every cycle that fetches, whatever the word is,
but for a timer the instruction itself sets, which then holds Vx (40_cycle.md; 90_conflicts.md C3).
It rests on the state Faulted (D4, log 5) for words that fault. -/
def Obligations.TimersTickOnceACycle : Prop :=
  ∀ (s : State) (w : Word), s.run = .running → s.fetch = .inl w →
    ∃ t, cycle s = .next t ∧
      ((∀ x, decodeWord w ≠ some (.ldDT x)) → t.dt.toNat = s.dt.toNat - 1) ∧
      ((∀ x, decodeWord w ≠ some (.ldST x)) → t.st.toNat = s.st.toNat - 1) ∧
      (∀ x, decodeWord w = some (.ldDT x) → t.dt = s.getV x) ∧
      (∀ x, decodeWord w = some (.ldST x) → t.st = s.getV x)

/-- The core never stops and refuses nothing: from Running a cycle ends in Running, in AwaitingKey(x)
only by Fx0A with that x, or in Faulted (40_cycle.md; the state Faulted is D4, log 5). -/
def Obligations.CycleEndsInOneOfThreeOutcomes : Prop :=
  ∀ s : State, s.run = .running →
    ∃ t, cycle s = .next t ∧
      (t.run = .running ∨
       (∃ x w, t.run = .awaitingKey x ∧ s.fetch = .inl w ∧ decodeWord w = some (.ldVxK x)) ∨
       (∃ k, t.run = .faulted k))

/-! ### Rules about the whole machine -/

/-- Every instruction but the jumps, call, return and skips leaves PC as the execute step found it,
also where it faults (41_flow.md, 42_skip.md, 47_keypad.md, 10_state.md R23). -/
def Obligations.OnlyFlowInstructionsWritePc : Prop :=
  ∀ (i : Instr) (s : State), ∃ t, exec i s = .next t ∧
    ((match i with
      | .ret | .jp _ | .call _ | .jpV0 _ | .seImm _ _ | .sneImm _ _ | .seReg _ _ _ | .sneReg _ _ _
      | .skp _ | .sknp _ => False
      | _ => True) → t.pc = s.pc)

/-- Annn, Fx1E and Fx29 are the only instructions that write IR, and none of the three raises or
touches memory, whatever IR receives (45_index.md R193). -/
def Obligations.OnlyIndexInstructionsWriteIr : Prop :=
  ∀ (i : Instr) (s : State), ∃ t, exec i s = .next t ∧
    (match i with
     | .ldI _ | .addI _ | .ldF _ =>
       t.run = s.run ∧ t.finfo = s.finfo ∧ SameBytes s t ∧ t = { s with ir := t.ir }
     | _ => t.ir = s.ir)

/-- Fx33 and Fx55 are the only instructions that write memory: after any other every byte reads as
before (10_state.md R28, 20_memory.md R73). -/
def Obligations.OnlyStoresWriteMemory : Prop :=
  ∀ (i : Instr) (s : State), ∃ t, exec i s = .next t ∧ t.font = s.font ∧
    ((match i with
      | .ldB _ | .stRegs _ => False
      | _ => True) → t.mem = s.mem ∧ SameBytes s t)

/-- 00E0 and Dxyn are the only instructions that write the display (10_state.md R25). -/
def Obligations.OnlyClearAndDrawWriteDisplay : Prop :=
  ∀ (i : Instr) (s : State), ∃ t, exec i s = .next t ∧
    ((match i with
      | .cls | .drw _ _ _ => False
      | _ => True) → t.disp = s.disp)

/-- 2nnn and 00EE are the only instructions that touch the call stack (10_state.md R24). -/
def Obligations.OnlyCallAndReturnTouchTheStack : Prop :=
  ∀ (i : Instr) (s : State), ∃ t, exec i s = .next t ∧
    ((match i with
      | .call _ | .ret => False
      | _ => True) → t.stack = s.stack)

/-- No instruction but the six flag writers changes VF, unless its own x field makes register 15 its
destination, which in Fx65 means the block reaches VF (10_state.md R21, R36). -/
def Obligations.OnlyFlagWritersOrDestinationChangeVf : Prop :=
  ∀ (i : Instr) (s : State), ∃ t, exec i s = .next t ∧
    ((match i with
      | .addReg _ _ | .sub _ _ | .subn _ _ | .shr _ _ | .shl _ _ | .drw _ _ _ => False
      | .ldImm x _ | .addImm x _ | .ldReg x _ | .orReg x _ | .andReg x _ | .xorReg x _ | .rnd x _
      | .ldVxDT x | .ldRegs x => x ≠ 0xF
      | _ => True) → t.getV vf = s.getV vf)

/-- Which instruction raises which kind, and that every other leaves RUN and the record alone, but
for Fx0A, which enters the wait (60_exceptions.md 1; KeyIndexOutOfRange and the state Faulted are
the spec's decisions D9 and D4, log 5 and 14). -/
def Obligations.FaultKindsByInstruction : Prop :=
  ∀ (i : Instr) (s : State), ∃ t, exec i s = .next t ∧
    ((t.run = s.run ∧ t.finfo = s.finfo) ∨
     (match i with
      | .ret => t.run = .faulted .stackUnderflow
      | .call _ => t.run = .faulted .stackOverflow
      | .skp _ | .sknp _ => t.run = .faulted .keyIndexOutOfRange
      | .drw _ _ _ | .ldB _ | .stRegs _ | .ldRegs _ => t.run = .faulted .addressOutOfBounds
      | .ldVxK x => t.run = .awaitingKey x ∧ t.finfo = s.finfo
      | _ => False))

/-! ### Invariants -/

/-- The power-on state is consistent: a stack of at most 16 entries, PC at most 0x10FE (10_state.md 7
and 11); and, by the model's choices, canonical memory (log 23), a fault record exactly when RUN is
Faulted, so none here (log 6; the spec gives FINFO no value at power-on), and, if loading is open,
PC 0x200 and Running (log 9). -/
def Obligations.PowerOnStateIsConsistent : Prop :=
  State.reset.Inv ∧ State.reset.RecordFits

/-- Every step keeps the state consistent, whatever the host does: memory stays canonical, the stack
holds at most 16 entries of at most 0x1000, PC never exceeds 0x10FE, there is a fault record
exactly when RUN is Faulted, and if loading is open PC is 0x200 and RUN Running (10_state.md 11,
"Invariants that hold in every reachable state"). The memory form, the record's presence and
loadOpen are the model's choices, log 23, 6 and 9; the record itself is the spec's decision D5. -/
def Obligations.StepKeepsTheStateConsistent : Prop :=
  ∀ s t : State, s.Inv → step s = .next t → t.Inv

/-- Every step keeps the fault record fitting the kind of the fault: the address or index its kind
carries, and the word exactly when the fetch did not fault, that is when the recorded PC is at most
0xFFE (60_exceptions.md 1, the spec's decision D5, log 6 and 7). -/
def Obligations.StepKeepsTheFaultRecordFitting : Prop :=
  ∀ s t : State, s.RecordFits → step s = .next t → t.RecordFits

/-! ### Control transfer -/

/-- RET: the most recent entry becomes PC and leaves the stack; with an empty stack it raises
StackUnderflow and nothing else changes (41_flow.md; the state Faulted and its record are D4, D5,
log 5, 6 and 7). -/
def Obligations.RetReturnsOrUnderflows : Prop :=
  EncodedAs 0xFFFF 0x00EE (fun _ => .ret) ∧
  ∀ s : State,
    (0 < s.sp → ∃ t, exec .ret s = .next t ∧ s.stackEntry (s.sp - 1) = some t.pc ∧
      t.sp = s.sp - 1 ∧ (∀ j, j < t.sp → t.stackEntry j = s.stackEntry j) ∧ OnlyStackPc s t) ∧
    (s.sp = 0 → ∃ t, exec .ret s = .next t ∧ RaisedOver s .stackUnderflow .ret none t)

/-- JP nnn: PC = nnn, nothing else changes; only nnn = 0xFFF cannot be fetched from
(41_flow.md R141). -/
def Obligations.JpJumps : Prop :=
  EncodedAs 0xF000 0x1000 (fun w => .jp (fieldNNN w)) ∧
  ∀ (nnn : Addr) (s : State), ∃ t, exec (.jp nnn) s = .next t ∧ t.pc.toNat = nnn.toNat ∧
    OnlyPc s t ∧ (nnn = 0xFFF → t.fetch = .inr 0x1000)

/-- CALL nnn: the advanced PC is pushed and PC = nnn; with 16 entries held it raises StackOverflow
and nothing else changes (41_flow.md; that the check precedes every write is D6, the state Faulted
and its record D4, D5; log 5, 6, 7, 12). -/
def Obligations.CallPushesOrOverflows : Prop :=
  EncodedAs 0xF000 0x2000 (fun w => .call (fieldNNN w)) ∧
  ∀ (nnn : Addr) (s : State),
    (s.sp < 16 → ∃ t, exec (.call nnn) s = .next t ∧ t.pc.toNat = nnn.toNat ∧
      t.sp = s.sp + 1 ∧ t.stackEntry s.sp = some s.pc ∧
      (∀ j, j < s.sp → t.stackEntry j = s.stackEntry j) ∧ OnlyStackPc s t) ∧
    (16 ≤ s.sp → ∃ t, exec (.call nnn) s = .next t ∧ RaisedOver s .stackOverflow (.call nnn) none t)

/-- JP V0, nnn: PC = nnn + V0, not reduced to 12 bits, always V0, nothing else changes; a sum above
0xFFE cannot be fetched from (41_flow.md R143). -/
def Obligations.JpV0JumpsByV0 : Prop :=
  EncodedAs 0xF000 0xB000 (fun w => .jpV0 (fieldNNN w)) ∧
  ∀ (nnn : Addr) (s : State), ∃ t, exec (.jpV0 nnn) s = .next t ∧
    t.pc.toNat = nnn.toNat + (s.getV 0).toNat ∧ t.pc.toNat ≤ 0x10FE ∧ OnlyPc s t ∧
    (0xFFE < t.pc.toNat → t.fetch = .inr (max t.pc.toNat 0x1000))

/-! ### Skips -/

/-- SE Vx, kk and SNE Vx, kk: 2 is added to PC when Vx equals kk, when it differs; nothing else
changes (42_skip.md R151, R152). -/
def Obligations.ImmediateSkips : Prop :=
  EncodedAs 0xF000 0x3000 (fun w => .seImm (fieldX w) (fieldKK w)) ∧
  EncodedAs 0xF000 0x4000 (fun w => .sneImm (fieldX w) (fieldKK w)) ∧
  ∀ (x : Nibble) (kk : Byte) (s : State),
    (∃ t, exec (.seImm x kk) s = .next t ∧
      t.pc = (if s.getV x = kk then s.pc + 2 else s.pc) ∧ OnlyPc s t) ∧
    (∃ t, exec (.sneImm x kk) s = .next t ∧
      t.pc = (if s.getV x = kk then s.pc else s.pc + 2) ∧ OnlyPc s t)

/-- SE Vx, Vy and SNE Vx, Vy: 2 is added to PC when the registers are equal, when they differ;
nothing else changes; every n (42_skip.md; that n is ignored is 90_conflicts.md C2 and D3,
log 11). -/
def Obligations.RegisterSkips : Prop :=
  EncodedAs 0xF000 0x5000 (fun w => .seReg (fieldX w) (fieldY w) (fieldN w)) ∧
  EncodedAs 0xF000 0x9000 (fun w => .sneReg (fieldX w) (fieldY w) (fieldN w)) ∧
  ∀ (x y n : Nibble) (s : State),
    (∃ t, exec (.seReg x y n) s = .next t ∧
      t.pc = (if s.getV x = s.getV y then s.pc + 2 else s.pc) ∧ OnlyPc s t) ∧
    (∃ t, exec (.sneReg x y n) s = .next t ∧
      t.pc = (if s.getV x = s.getV y then s.pc else s.pc + 2) ∧ OnlyPc s t)

/-! ### Constants and the random byte -/

/-- LD Vx, kk: Vx = kk, nothing else changes (43_const_random.md R160). -/
def Obligations.LdImmLoadsConstant : Prop :=
  EncodedAs 0xF000 0x6000 (fun w => .ldImm (fieldX w) (fieldKK w)) ∧
  ∀ (x : Nibble) (kk : Byte) (s : State), ∃ t, exec (.ldImm x kk) s = .next t ∧
    (∀ r, t.getV r = if r = x then kk else s.getV r) ∧ OnlyV s t

/-- ADD Vx, kk: Vx = (Vx + kk) mod 256, nothing else changes, VF only when x is 15
(43_const_random.md R161). -/
def Obligations.AddImmAddsWithoutCarry : Prop :=
  EncodedAs 0xF000 0x7000 (fun w => .addImm (fieldX w) (fieldKK w)) ∧
  ∀ (x : Nibble) (kk : Byte) (s : State), ∃ t, exec (.addImm x kk) s = .next t ∧
    (t.getV x).toNat = ((s.getV x).toNat + kk.toNat) % 256 ∧
    (∀ r, r ≠ x → t.getV r = s.getV r) ∧ OnlyV s t

/-- RND Vx, kk: exactly one byte is drawn, of any value, and Vx is it AND kk; no other instruction
draws, and no cycle but that of a Cxkk (43_const_random.md). The byte is the provider's next answer,
and past the answers a test has fixed a free value (D17, log 3): the clauses hold for every value
of it. -/
def Obligations.RndLoadsMaskedDraw : Prop :=
  EncodedAs 0xF000 0xC000 (fun w => .rnd (fieldX w) (fieldKK w)) ∧
  (∀ (x : Nibble) (kk : Byte) (s : State), ∃ t r, exec (.rnd x kk) s = .next t ∧
    (∀ b rest, s.draws = b :: rest → r = b) ∧ (s.draws = [] → r = Config.randByte s.drawCount) ∧
    (∀ q, t.getV q = if q = x then r &&& kk else s.getV q) ∧
    t = { s with v := t.v, draws := s.draws.tail, drawCount := s.drawCount + 1 } ∧ SameBytes s t) ∧
  (∀ (i : Instr) (s : State), (∀ x kk, i ≠ .rnd x kk) →
    ∃ t, exec i s = .next t ∧ t.draws = s.draws ∧ t.drawCount = s.drawCount) ∧
  (∀ s : State, (∀ w x kk, s.fetch = .inl w → decodeWord w ≠ some (.rnd x kk)) →
    ∃ t, cycle s = .next t ∧ t.draws = s.draws ∧ t.drawCount = s.drawCount)

/-! ### ALU -/

/-- LD Vx, Vy: Vx = Vy, nothing else changes (44_alu.md R171). -/
def Obligations.LdRegCopies : Prop :=
  EncodedAs 0xF00F 0x8000 (fun w => .ldReg (fieldX w) (fieldY w)) ∧
  ∀ (x y : Nibble) (s : State), ∃ t, exec (.ldReg x y) s = .next t ∧
    (∀ r, t.getV r = if r = x then s.getV y else s.getV r) ∧ OnlyV s t

/-- OR, AND and XOR Vx, Vy: bitwise on 8 bits, nothing else changes, VF only when x is 15
(44_alu.md R172, R173, R174). -/
def Obligations.LogicOperations : Prop :=
  EncodedAs 0xF00F 0x8001 (fun w => .orReg (fieldX w) (fieldY w)) ∧
  EncodedAs 0xF00F 0x8002 (fun w => .andReg (fieldX w) (fieldY w)) ∧
  EncodedAs 0xF00F 0x8003 (fun w => .xorReg (fieldX w) (fieldY w)) ∧
  ∀ (x y : Nibble) (s : State),
    (∃ t, exec (.orReg x y) s = .next t ∧
      (∀ j, (t.getV x).getLsbD j = ((s.getV x).getLsbD j || (s.getV y).getLsbD j)) ∧
      (∀ r, r ≠ x → t.getV r = s.getV r) ∧ OnlyV s t) ∧
    (∃ t, exec (.andReg x y) s = .next t ∧
      (∀ j, (t.getV x).getLsbD j = ((s.getV x).getLsbD j && (s.getV y).getLsbD j)) ∧
      (∀ r, r ≠ x → t.getV r = s.getV r) ∧ OnlyV s t) ∧
    (∃ t, exec (.xorReg x y) s = .next t ∧
      (∀ j, (t.getV x).getLsbD j = ((s.getV x).getLsbD j ^^ (s.getV y).getLsbD j)) ∧
      (∀ r, r ≠ x → t.getV r = s.getV r) ∧ OnlyV s t)

/-- ADD Vx, Vy: Vx = the sum modulo 256, then VF = 1 if the sum exceeds 255, else 0, so that with
x = 15 VF is the carry; nothing else changes (44_alu.md R175, 90_conflicts.md C9). -/
def Obligations.AddRegAddsWithCarryOut : Prop :=
  EncodedAs 0xF00F 0x8004 (fun w => .addReg (fieldX w) (fieldY w)) ∧
  ∀ (x y : Nibble) (s : State), ∃ t, exec (.addReg x y) s = .next t ∧
    (x ≠ 0xF → (t.getV x).toNat = ((s.getV x).toNat + (s.getV y).toNat) % 256) ∧
    (t.getV 0xF = if (s.getV x).toNat + (s.getV y).toNat > 255 then 1 else 0) ∧
    (∀ r, r ≠ x → r ≠ 0xF → t.getV r = s.getV r) ∧ OnlyV s t

/-- SUB and SUBN: Vx = the difference modulo 256, then VF = 1 if the minuend is at least the
subtrahend, else 0; nothing else changes (44_alu.md R176, R178, 90_conflicts.md C9). -/
def Obligations.SubtractWithNotBorrow : Prop :=
  EncodedAs 0xF00F 0x8005 (fun w => .sub (fieldX w) (fieldY w)) ∧
  EncodedAs 0xF00F 0x8007 (fun w => .subn (fieldX w) (fieldY w)) ∧
  ∀ (x y : Nibble) (s : State),
    (∃ t, exec (.sub x y) s = .next t ∧
      (x ≠ 0xF → ((t.getV x).toNat : Int) = ((s.getV x).toNat - (s.getV y).toNat : Int) % 256) ∧
      (t.getV 0xF = if (s.getV x).toNat ≥ (s.getV y).toNat then 1 else 0) ∧
      (∀ r, r ≠ x → r ≠ 0xF → t.getV r = s.getV r) ∧ OnlyV s t) ∧
    (∃ t, exec (.subn x y) s = .next t ∧
      (x ≠ 0xF → ((t.getV x).toNat : Int) = ((s.getV y).toNat - (s.getV x).toNat : Int) % 256) ∧
      (t.getV 0xF = if (s.getV y).toNat ≥ (s.getV x).toNat then 1 else 0) ∧
      (∀ r, r ≠ x → r ≠ 0xF → t.getV r = s.getV r) ∧ OnlyV s t)

/-- SHR Vx and SHL Vx: VF = the bit shifted out, then Vx shifted by one in place, whatever y is;
with x = 15 VF ends as the flag bit shifted once: 0, and 0 or 2 (44_alu.md; the case x = 15 is the
spec's decision D19, log 15). -/
def Obligations.ShiftsByOneInPlace : Prop :=
  EncodedAs 0xF00F 0x8006 (fun w => .shr (fieldX w) (fieldY w)) ∧
  EncodedAs 0xF00F 0x800E (fun w => .shl (fieldX w) (fieldY w)) ∧
  ∀ (x y : Nibble) (s : State),
    (∃ t, exec (.shr x y) s = .next t ∧
      (x ≠ 0xF → (t.getV x).toNat = (s.getV x).toNat / 2 ∧
        (t.getV 0xF).toNat = (s.getV x).toNat % 2) ∧
      (x = 0xF → t.getV 0xF = 0) ∧
      (∀ r, r ≠ x → r ≠ 0xF → t.getV r = s.getV r) ∧ OnlyV s t) ∧
    (∃ t, exec (.shl x y) s = .next t ∧
      (x ≠ 0xF → (t.getV x).toNat = (s.getV x).toNat * 2 % 256 ∧
        (t.getV 0xF).toNat = (s.getV x).toNat / 128) ∧
      (x = 0xF → (t.getV 0xF).toNat = (s.getV 0xF).toNat / 128 * 2) ∧
      (∀ r, r ≠ x → r ≠ 0xF → t.getV r = s.getV r) ∧ OnlyV s t)

/-! ### Index register -/

/-- LD I, nnn: IR = nnn, nothing else changes (45_index.md R190). -/
def Obligations.LdILoadsAddress : Prop :=
  EncodedAs 0xF000 0xA000 (fun w => .ldI (fieldNNN w)) ∧
  ∀ (nnn : Addr) (s : State), ∃ t, exec (.ldI nnn) s = .next t ∧
    t.ir.toNat = nnn.toNat ∧ t.ir.toNat ≤ 0xFFF ∧ OnlyIr s t

/-- ADD I, Vx: IR = (IR + Vx) mod 65536 and nothing else changes, VF included (45_index.md; the wrap
past 0xFFFF is the spec's decision D8, log 13). -/
def Obligations.AddIAddsRegister : Prop :=
  EncodedAs 0xF0FF 0xF01E (fun w => .addI (fieldX w)) ∧
  ∀ (x : Nibble) (s : State), ∃ t, exec (.addI x) s = .next t ∧
    t.ir.toNat = (s.ir.toNat + (s.getV x).toNat) % 65536 ∧ OnlyIr s t

/-- LD F, Vx: IR = 0x50 + 5 * Vx with the whole of Vx, at most 0x54B, nothing else changes
(45_index.md R192). -/
def Obligations.LdFPointsAtGlyph : Prop :=
  EncodedAs 0xF0FF 0xF029 (fun w => .ldF (fieldX w)) ∧
  ∀ (x : Nibble) (s : State), ∃ t, exec (.ldF x) s = .next t ∧
    t.ir.toNat = 0x50 + 5 * (s.getV x).toNat ∧ t.ir.toNat ≤ 0x54B ∧ OnlyIr s t

/-! ### Display -/

/-- CLS: every one of the 2048 cells is 0 afterwards, nothing else changes, VF included
(46_display.md R200). -/
def Obligations.ClsClearsEveryCell : Prop :=
  EncodedAs 0xFFFF 0x00E0 (fun _ => .cls) ∧
  ∀ s : State, ∃ t, exec .cls s = .next t ∧ (∀ i, i < 2048 → t.pixel i = false) ∧ OnlyDisp s t

/-- Cell i of the display lies under a sprite bit 1 that Dxyn draws from the state s: the first n
rows of the sprite at IR, its top left corner at (Vx mod 64, Vy mod 32), clipped at the right and
bottom edges (46_display.md R201). -/
def spriteCovers (x y : Nibble) (n : Nat) (s : State) (i : Nat) : Bool :=
  let xpos := (s.getV x).toNat % 64
  let ypos := (s.getV y).toNat % 32
  decide (xpos ≤ i % 64) && decide (i % 64 < xpos + 8) && decide (ypos ≤ i / 64) &&
    decide (i / 64 < ypos + n) &&
    (s.byteAt (s.ir.toNat + (i / 64 - ypos))).getLsbD (7 - (i % 64 - xpos))

/-- `u` is `s` after n rows of the sprite have been drawn: each cell is the exclusive or of the old
cell and the clipped sprite mask, VF is 1 exactly when a lit cell was erased, and nothing else
differs (46_display.md R201, corner cases 3, 4 and 5). -/
def DrawnBy (x y : Nibble) (n : Nat) (s u : State) : Prop :=
  (∀ i, i < 2048 → u.pixel i = (s.pixel i ^^ spriteCovers x y n s i)) ∧
  (u.getV vf = 1 ∨ u.getV vf = 0) ∧
  (u.getV vf = 1 ↔ ∃ i, i < 2048 ∧ s.pixel i = true ∧ spriteCovers x y n s i = true) ∧
  OnlyDispVf s u

/-- DRW Vx, Vy, n with every drawn row inside the memory: the draw is the exclusive or of the display
with the clipped sprite mask, and VF says whether a lit pixel was erased. Rows below the bottom
edge are not read, so their addresses are not limited (46_display.md; that and the coordinates
being read before VF is cleared are the spec's decision D18, log 16). -/
def Obligations.DrawIsXorWithClippedMask : Prop :=
  EncodedAs 0xF000 0xD000 (fun w => .drw (fieldX w) (fieldY w) (fieldN w)) ∧
  ∀ (x y n : Nibble) (s : State),
    (∀ r, r < n.toNat → r + (s.getV y).toNat % 32 ≤ 31 → s.ir.toNat + r ≤ 0xFFF) →
    ∃ t, exec (.drw x y n) s = .next t ∧ DrawnBy x y n.toNat s t

/-- DRW Vx, Vy, n with a drawn row r outside the memory: the rows below address 0x1000 are drawn and
stay, and the first address above 0xFFF raises AddressOutOfBounds (46_display.md; the spec's
decisions D6, D18, D4, D5; log 5, 6, 7, 12, 16). -/
def Obligations.DrawFaultKeepsEarlierRows : Prop :=
  ∀ (x y n : Nibble) (s : State) (r : Nat),
    r < n.toNat → r + (s.getV y).toNat % 32 ≤ 31 → 0xFFF < s.ir.toNat + r →
    ∃ t u, exec (.drw x y n) s = .next t ∧ DrawnBy x y (0x1000 - s.ir.toNat) s u ∧
      RaisedOver u .addressOutOfBounds (.drw x y n) (some (max s.ir.toNat 0x1000)) t

/-- Drawing the same sprite twice at the same position restores the display; the first draw gives
VF = 1 exactly when it covers a lit cell and the second exactly when the first covered an unlit one
(46_display.md). Corner case 6 of R201 and 95_test_vectors.md T8 say of the second that it needs only
a sprite bit 1; where they differ the pseudocode of R201 is followed, log 26. x and y are not VF,
since the first draw changes it and the second would be at another position (D18, log 16). -/
def Obligations.DrawingTwiceRestoresTheDisplay : Prop :=
  ∀ (x y n : Nibble) (s : State), x ≠ 0xF → y ≠ 0xF →
    (∀ r, r < n.toNat → r + (s.getV y).toNat % 32 ≤ 31 → s.ir.toNat + r ≤ 0xFFF) →
    ∃ t u, exec (.drw x y n) s = .next t ∧ exec (.drw x y n) t = .next u ∧ u.disp = s.disp ∧
      (t.getV vf = 1 ↔ ∃ i, i < 2048 ∧ s.pixel i = true ∧ spriteCovers x y n.toNat s i = true) ∧
      (u.getV vf = 1 ↔ ∃ i, i < 2048 ∧ s.pixel i = false ∧ spriteCovers x y n.toNat s i = true)

/-! ### Keypad -/

/-- SKP Vx and SKNP Vx: with Vx from 0 to 15, 2 is added to PC when key Vx is down, when it is up,
and nothing else changes; with Vx above 15 they raise KeyIndexOutOfRange(Vx) and nothing else
changes (47_keypad.md; the fault is the spec's decision D9, log 14, the record D5, log 6 and 7). -/
def Obligations.KeySkipsOrIndexFault : Prop :=
  EncodedAs 0xF0FF 0xE09E (fun w => .skp (fieldX w)) ∧
  EncodedAs 0xF0FF 0xE0A1 (fun w => .sknp (fieldX w)) ∧
  ∀ (x : Nibble) (s : State),
    (∀ k : Nibble, (s.getV x).toNat = k.toNat →
      (∃ t, exec (.skp x) s = .next t ∧
        t.pc = (if s.keyAt k = true then s.pc + 2 else s.pc) ∧ OnlyPc s t) ∧
      (∃ t, exec (.sknp x) s = .next t ∧
        t.pc = (if s.keyAt k = true then s.pc else s.pc + 2) ∧ OnlyPc s t)) ∧
    (15 < (s.getV x).toNat →
      (∃ t, exec (.skp x) s = .next t ∧
        RaisedOver s .keyIndexOutOfRange (.skp x) (some (s.getV x).toNat) t) ∧
      (∃ t, exec (.sknp x) s = .next t ∧
        RaisedOver s .keyIndexOutOfRange (.sknp x) (some (s.getV x).toNat) t))

/-- LD Vx, K: the cycle enters AwaitingKey(x) and changes nothing else, flags already set included;
the host's key-down event k then sets KEY[k], Vx = k and Running, ticks nothing and leaves PC
(47_keypad.md; that flags already set do not end the wait is the spec's decision D12, log 18). -/
def Obligations.KeyWaitAndArrival : Prop :=
  EncodedAs 0xF0FF 0xF00A (fun w => .ldVxK (fieldX w)) ∧
  ∀ (x k : Nibble) (s : State), ∃ t u, exec (.ldVxK x) s = .next t ∧
    t = { s with run := .awaitingKey x } ∧ SameBytes s t ∧
    perform (.keyDown k) t = .next u ∧
    (∀ r, u.getV r = if r = x then keyByte k else s.getV r) ∧ (keyByte k).toNat = k.toNat ∧
    (∀ j, u.keyAt j = if j = k then true else s.keyAt j) ∧
    u = { s with v := u.v, key := u.key, run := .running } ∧ SameBytes s u

/-! ### Timers -/

/-- LD Vx, DT: Vx = DT as the execute step finds it, that is after the tick of its own cycle; nothing
else changes (48_timers.md; the tick's place is 90_conflicts.md C3). -/
def Obligations.LdVxDTReadsTickedTimer : Prop :=
  EncodedAs 0xF0FF 0xF007 (fun w => .ldVxDT (fieldX w)) ∧
  (∀ (x : Nibble) (s : State), ∃ t, exec (.ldVxDT x) s = .next t ∧
    (∀ r, t.getV r = if r = x then s.dt else s.getV r) ∧ OnlyV s t) ∧
  (∀ (x : Nibble) (s : State) (w : Word), s.run = .running → s.fetch = .inl w →
    decodeWord w = some (.ldVxDT x) →
    ∃ t, cycle s = .next t ∧ (t.getV x).toNat = s.dt.toNat - 1 ∧ t.dt = t.getV x)

/-- LD DT, Vx: DT = Vx, nothing else changes; the write follows the tick of its own cycle, so DT
holds exactly Vx when the cycle ends, and the next cycle that fetches and does not set DT again
takes 1 from it, floored at 0 (48_timers.md R231). -/
def Obligations.LdDTSetsDelayTimer : Prop :=
  EncodedAs 0xF0FF 0xF015 (fun w => .ldDT (fieldX w)) ∧
  (∀ (x : Nibble) (s : State), ∃ t, exec (.ldDT x) s = .next t ∧ t = { s with dt := s.getV x } ∧
    SameBytes s t) ∧
  (∀ (x : Nibble) (s : State) (w : Word), s.run = .running → s.fetch = .inl w →
    decodeWord w = some (.ldDT x) →
    ∃ t, cycle s = .next t ∧ t.dt = s.getV x ∧
      ∀ w', t.fetch = .inl w' → (∀ x', decodeWord w' ≠ some (.ldDT x')) →
        ∃ u, cycle t = .next u ∧ u.dt.toNat = (s.getV x).toNat - 1)

/-- LD ST, Vx: ST = Vx, nothing else changes (48_timers.md; the core has no sound output, the spec's
decision D20). -/
def Obligations.LdSTSetsSoundTimer : Prop :=
  EncodedAs 0xF0FF 0xF018 (fun w => .ldST (fieldX w)) ∧
  ∀ (x : Nibble) (s : State), ∃ t, exec (.ldST x) s = .next t ∧ t = { s with st := s.getV x } ∧
    SameBytes s t

/-! ### Memory operations -/

/-- LD B, Vx with IR + 2 inside the memory: the hundreds, tens and units of Vx at IR, IR+1, IR+2,
nothing else changes. Memory is assumed canonical (log 23), as StepKeepsTheStateConsistent keeps it
(49_memory_ops.md). -/
def Obligations.LdBStoresDecimalDigits : Prop :=
  EncodedAs 0xF0FF 0xF033 (fun w => .ldB (fieldX w)) ∧
  ∀ (x : Nibble) (s : State), s.MemOk → s.ir.toNat + 2 ≤ 0xFFF →
    ∃ t, exec (.ldB x) s = .next t ∧
      (t.byteAt s.ir.toNat).toNat = (s.getV x).toNat / 100 ∧
      (t.byteAt (s.ir.toNat + 1)).toNat = (s.getV x).toNat / 10 % 10 ∧
      (t.byteAt (s.ir.toNat + 2)).toNat = (s.getV x).toNat % 10 ∧
      OnlyBytes s.ir.toNat (s.ir.toNat + 3) s t

/-- LD [I], Vx with IR + x inside the memory: V0 to Vx at IR to IR + x, nothing else changes, IR
included (49_memory_ops.md). -/
def Obligations.StRegsStoresTheBlock : Prop :=
  EncodedAs 0xF0FF 0xF055 (fun w => .stRegs (fieldX w)) ∧
  ∀ (x : Nibble) (s : State), s.MemOk → s.ir.toNat + x.toNat ≤ 0xFFF →
    ∃ t, exec (.stRegs x) s = .next t ∧
      (∀ r : Nibble, r.toNat ≤ x.toNat → t.byteAt (s.ir.toNat + r.toNat) = s.getV r) ∧
      OnlyBytes s.ir.toNat (s.ir.toNat + x.toNat + 1) s t

/-- LD Vx, [I] with IR + x inside the memory: V0 to Vx are the bytes at IR to IR + x, the registers
above Vx and everything else are unchanged, IR and memory included (49_memory_ops.md). -/
def Obligations.LdRegsLoadsTheBlock : Prop :=
  EncodedAs 0xF0FF 0xF065 (fun w => .ldRegs (fieldX w)) ∧
  ∀ (x : Nibble) (s : State), s.ir.toNat + x.toNat ≤ 0xFFF →
    ∃ t, exec (.ldRegs x) s = .next t ∧
      (∀ r : Nibble, t.getV r =
        if r.toNat ≤ x.toNat then s.byteAt (s.ir.toNat + r.toNat) else s.getV r) ∧
      OnlyV s t

/-- The three with a byte outside the memory: the bytes and registers before address 0x1000 are
moved and stay, the first address above 0xFFF raises AddressOutOfBounds, and nothing else changes
(49_memory_ops.md; the spec's decisions D6, D7, D4, D5; log 5, 6, 7, 12, 21; the form is log 23). -/
def Obligations.MemoryFaultsKeepEarlierBytes : Prop :=
  (∀ (x : Nibble) (s : State), s.MemOk → 0xFFF < s.ir.toNat + 2 →
    ∃ t u, exec (.ldB x) s = .next t ∧
      RaisedOver u .addressOutOfBounds (.ldB x) (some (max s.ir.toNat 0x1000)) t ∧
      (s.ir.toNat ≤ 0xFFF → (u.byteAt s.ir.toNat).toNat = (s.getV x).toNat / 100) ∧
      (s.ir.toNat + 1 ≤ 0xFFF →
        (u.byteAt (s.ir.toNat + 1)).toNat = (s.getV x).toNat / 10 % 10) ∧
      OnlyBytes s.ir.toNat 0x1000 s u) ∧
  (∀ (x : Nibble) (s : State), s.MemOk → 0xFFF < s.ir.toNat + x.toNat →
    ∃ t u, exec (.stRegs x) s = .next t ∧
      RaisedOver u .addressOutOfBounds (.stRegs x) (some (max s.ir.toNat 0x1000)) t ∧
      (∀ r : Nibble, s.ir.toNat + r.toNat ≤ 0xFFF → u.byteAt (s.ir.toNat + r.toNat) = s.getV r) ∧
      OnlyBytes s.ir.toNat 0x1000 s u) ∧
  (∀ (x : Nibble) (s : State), 0xFFF < s.ir.toNat + x.toNat →
    ∃ t u, exec (.ldRegs x) s = .next t ∧
      RaisedOver u .addressOutOfBounds (.ldRegs x) (some (max s.ir.toNat 0x1000)) t ∧
      (∀ r : Nibble, u.getV r =
        if s.ir.toNat + r.toNat ≤ 0xFFF then s.byteAt (s.ir.toNat + r.toNat) else s.getV r) ∧
      OnlyV s u)

/-! ### Memory -/

/-- MemRead and MemWrite check the bound 0xFFF and nothing else; a write changes the byte at its
address and no other, and keeps memory canonical; and canonical memories that read alike are
equal (20_memory.md 2 and 4). -/
def Obligations.MemoryReadsTheLastWrite : Prop :=
  (∀ (s : State) a, (a ≤ 0xFFF → s.memRead a = some (s.byteAt a)) ∧ (0xFFF < a → s.memRead a = none)) ∧
  (∀ (s : State) a b, 0xFFF < a → s.memWrite a b = none) ∧
  (∀ (s : State) a b, s.MemOk → a ≤ 0xFFF → ∃ t, s.memWrite a b = some t ∧ t.MemOk ∧
    t = { s with mem := t.mem } ∧ ∀ c, t.byteAt c = if c = a then b else s.byteAt c) ∧
  (∀ s t : State, s.MemOk → t.MemOk → s.font = t.font → (∀ a, s.byteAt a = t.byteAt a) →
    s.mem = t.mem)

/-- Stores are seen by the very next fetch: after bytes b0 and b1 are stored at PC and PC+1 the fetch
reads the word b0 ++ b1 (20_memory.md 3 and 4). -/
def Obligations.FetchSeesTheStore : Prop :=
  ∀ (s : State) (b0 b1 : Byte), s.MemOk → s.pc.toNat ≤ 0xFFE →
    ∃ t u, s.memWrite s.pc.toNat b0 = some t ∧ t.memWrite (s.pc.toNat + 1) b1 = some u ∧
      ∃ w, u.fetch = .inl w ∧ w.toNat = b0.toNat * 256 + b1.toNat

/-! ### The host's operations -/

/-- Power-on: every piece of state has the value the rule gives, with any FONT
(70_reset_and_hazards.md R321). -/
def Obligations.PowerOnValues : Prop :=
  (∀ r, State.reset.getV r = 0) ∧ State.reset.ir = 0 ∧ State.reset.pc = 0x200 ∧
  State.reset.sp = 0 ∧ (∀ i, State.reset.pixel i = false) ∧ (∀ k, State.reset.keyAt k = false) ∧
  State.reset.dt = 0 ∧ State.reset.st = 0 ∧ State.reset.run = .running ∧
  ∀ (font : Config.Font) (a : Nat), ({ State.reset with font := font } : State).byteAt a =
    if 0x50 ≤ a ∧ a ≤ 0x9F then Config.fontByte font (a - 0x50) else 0

/-- reset(), in every run state: memory has FONT restored and 0x0A2 to 0xFFF zeroed and keeps
0x000 to 0x04F, 0x0A0 and 0x0A1; PC is 0x200; every other item of the spec has its power-on value
(70_reset_and_hazards.md; the literal 0xA2 is 90_conflicts.md C6 and D14, log 19; the items other
than PC and memory are the spec's decision D13, log 20, which also says what becomes of the model's
own fields; the record and loadOpen are log 6 and 9). -/
def Obligations.WarmResetValues : Prop :=
  ∀ s : State, ∃ t, perform .reset s = .next t ∧
    (∀ a, t.byteAt a =
      if a ≤ 0x4F ∨ a = 0xA0 ∨ a = 0xA1 then s.byteAt a
      else if 0x50 ≤ a ∧ a ≤ 0x9F then Config.fontByte s.font (a - 0x50) else 0) ∧
    t = { State.reset with
      mem := t.mem, font := s.font, draws := s.draws, drawCount := s.drawCount, script := s.script }

/-- load_rom(bytes), before the first cycle and with at most 0xE00 bytes: the bytes are at 0x200 on
and nothing else changes; a longer image, and any load after the first cycle, is refused
(50_host_interface.md; the refusals are U11, U19 and the spec's decision D21, log 9). -/
def Obligations.LoadRomLoadsOrIsRefused : Prop :=
  ∀ (bytes : List Byte) (s : State), s.MemOk →
    (s.loadOpen = true → bytes.length ≤ 0xE00 →
      ∃ t, perform (.loadRom bytes) s = .next t ∧
        (∀ i (h : i < bytes.length), t.byteAt (0x200 + i) = bytes[i]) ∧
        OnlyBytes 0x200 (0x200 + bytes.length) s t) ∧
    (s.loadOpen = true → 0xE00 < bytes.length →
      perform (.loadRom bytes) s = .refused .romTooLarge) ∧
    (s.loadOpen = false → perform (.loadRom bytes) s = .refused .loadAfterFirstCycle)

/-- key_down(k): sets KEY[k], and in AwaitingKey(x) also Vx = k and Running; in Running and in Faulted
nothing else; a host key that maps to no keypad key makes no event (50_host_interface.md; the state
Faulted is the spec's decision D4, log 5). -/
def Obligations.KeyDownSetsFlagAndEndsWait : Prop :=
  (∀ (k : Nibble) (s : State), ∃ t, perform (.keyDown k) s = .next t ∧
    (∀ j, t.keyAt j = if j = k then true else s.keyAt j) ∧
    (∀ x, s.run = .awaitingKey x → t.run = .running ∧
      (∀ r, r ≠ x → t.getV r = s.getV r) ∧ (t.getV x).toNat = k.toNat ∧
      t = { s with key := t.key, v := t.v, run := t.run }) ∧
    ((∀ x, s.run ≠ .awaitingKey x) → t = { s with key := t.key })) ∧
  (∀ c, hostKeymap.lookup c = none → hostKeyEvent c = none)

/-- key_up(k) clears KEY[k], clear_keys() clears all sixteen flags, and neither changes anything else,
a pending wait included; the core itself does neither: no instruction and no cycle changes a flag
(50_host_interface.md R257). -/
def Obligations.KeyReleaseIsTheHosts : Prop :=
  (∀ (k : Nibble) (s : State), ∃ t, perform (.keyUp k) s = .next t ∧
    (∀ j, t.keyAt j = if j = k then false else s.keyAt j) ∧ t = { s with key := t.key }) ∧
  (∀ s : State, ∃ t, perform .clearKeys s = .next t ∧ (∀ j, t.keyAt j = false) ∧
    t = { s with key := t.key }) ∧
  (∀ (i : Instr) (s : State), ∃ t, exec i s = .next t ∧ t.key = s.key) ∧
  (∀ s : State, ∃ t, cycle s = .next t ∧ t.key = s.key)

end
end

