-- ==== Sys2Proof/Laws/Decode.lean ====
section
/-! SUPPORT. The bits of assembled words, their fields, a word put together again from its fields, and
what the masks of the opcode map look at. -/

namespace Sys2Proof

/-! ### The bits of a word of each format -/

theorem getLsbD_wordNNN (g : Nibble) (a : Addr) (i : Nat) :
    (wordNNN g a).getLsbD i = if i < 12 then a.getLsbD i else g.getLsbD (i - 12) :=
  BitVec.getLsbD_append

theorem getLsbD_wordXKK (g x : Nibble) (k : Byte) (i : Nat) :
    (wordXKK g x k).getLsbD i =
      if i < 8 then k.getLsbD i else if i - 8 < 4 then x.getLsbD (i - 8) else g.getLsbD (i - 8 - 4) :=
  BitVec.getLsbD_append.trans (congrArg _ BitVec.getLsbD_append)

theorem getLsbD_wordXYN (g x y n : Nibble) (i : Nat) :
    (wordXYN g x y n).getLsbD i =
      if i < 4 then n.getLsbD i else if i - 4 < 4 then y.getLsbD (i - 4)
      else if i - 4 - 4 < 4 then x.getLsbD (i - 4 - 4) else g.getLsbD (i - 4 - 4 - 4) :=
  BitVec.getLsbD_append.trans (congrArg _ (BitVec.getLsbD_append.trans
    (congrArg _ BitVec.getLsbD_append)))

theorem getLsbD_joinBytes (hi lo : Byte) (i : Nat) :
    (joinBytes hi lo).getLsbD i = if i < 8 then lo.getLsbD i else hi.getLsbD (i - 8) :=
  BitVec.getLsbD_append

/-! ### Their fields -/

@[simp] theorem opcodeGroup_wordNNN (g : Nibble) (a : Addr) : opcodeGroup (wordNNN g a) = g := by
  apply BitVec.eq_of_getLsbD_eq
  intro i hi
  simp only [opcodeGroup, BitVec.getLsbD_extractLsb', getLsbD_wordNNN, hi, decide_true, Bool.true_and]
  rw [if_neg (show ¬ 12 + i < 12 by omega), show 12 + i - 12 = i by omega]

@[simp] theorem fieldNNN_wordNNN (g : Nibble) (a : Addr) : fieldNNN (wordNNN g a) = a := by
  apply BitVec.eq_of_getLsbD_eq
  intro i hi
  simp only [fieldNNN, BitVec.getLsbD_extractLsb', getLsbD_wordNNN, hi, decide_true, Bool.true_and]
  rw [if_pos (show 0 + i < 12 by omega), show 0 + i = i by omega]

@[simp] theorem opcodeGroup_wordXKK (g x : Nibble) (k : Byte) : opcodeGroup (wordXKK g x k) = g := by
  apply BitVec.eq_of_getLsbD_eq
  intro i hi
  simp only [opcodeGroup, BitVec.getLsbD_extractLsb', getLsbD_wordXKK, hi, decide_true, Bool.true_and]
  rw [if_neg (show ¬ 12 + i < 8 by omega), if_neg (show ¬ 12 + i - 8 < 4 by omega), show 12 + i - 8 - 4 = i by omega]

@[simp] theorem fieldX_wordXKK (g x : Nibble) (k : Byte) : fieldX (wordXKK g x k) = x := by
  apply BitVec.eq_of_getLsbD_eq
  intro i hi
  simp only [fieldX, BitVec.getLsbD_extractLsb', getLsbD_wordXKK, hi, decide_true, Bool.true_and]
  rw [if_neg (show ¬ 8 + i < 8 by omega), if_pos (show 8 + i - 8 < 4 by omega), show 8 + i - 8 = i by omega]

@[simp] theorem fieldKK_wordXKK (g x : Nibble) (k : Byte) : fieldKK (wordXKK g x k) = k := by
  apply BitVec.eq_of_getLsbD_eq
  intro i hi
  simp only [fieldKK, BitVec.getLsbD_extractLsb', getLsbD_wordXKK, hi, decide_true, Bool.true_and]
  rw [if_pos (show 0 + i < 8 by omega), show 0 + i = i by omega]

@[simp] theorem opcodeGroup_wordXYN (g x y n : Nibble) : opcodeGroup (wordXYN g x y n) = g := by
  apply BitVec.eq_of_getLsbD_eq
  intro i hi
  simp only [opcodeGroup, BitVec.getLsbD_extractLsb', getLsbD_wordXYN, hi, decide_true, Bool.true_and]
  rw [if_neg (show ¬ 12 + i < 4 by omega), if_neg (show ¬ 12 + i - 4 < 4 by omega), if_neg (show ¬ 12 + i - 4 - 4 < 4 by omega), show 12 + i - 4 - 4 - 4 = i by omega]

@[simp] theorem fieldX_wordXYN (g x y n : Nibble) : fieldX (wordXYN g x y n) = x := by
  apply BitVec.eq_of_getLsbD_eq
  intro i hi
  simp only [fieldX, BitVec.getLsbD_extractLsb', getLsbD_wordXYN, hi, decide_true, Bool.true_and]
  rw [if_neg (show ¬ 8 + i < 4 by omega), if_neg (show ¬ 8 + i - 4 < 4 by omega), if_pos (show 8 + i - 4 - 4 < 4 by omega), show 8 + i - 4 - 4 = i by omega]

@[simp] theorem fieldY_wordXYN (g x y n : Nibble) : fieldY (wordXYN g x y n) = y := by
  apply BitVec.eq_of_getLsbD_eq
  intro i hi
  simp only [fieldY, BitVec.getLsbD_extractLsb', getLsbD_wordXYN, hi, decide_true, Bool.true_and]
  rw [if_neg (show ¬ 4 + i < 4 by omega), if_pos (show 4 + i - 4 < 4 by omega), show 4 + i - 4 = i by omega]

@[simp] theorem fieldN_wordXYN (g x y n : Nibble) : fieldN (wordXYN g x y n) = n := by
  apply BitVec.eq_of_getLsbD_eq
  intro i hi
  simp only [fieldN, BitVec.getLsbD_extractLsb', getLsbD_wordXYN, hi, decide_true, Bool.true_and]
  rw [if_pos (show 0 + i < 4 by omega), show 0 + i = i by omega]

/-! ### A word from its fields -/

theorem word_eq_NNN (w : Word) : wordNNN (opcodeGroup w) (fieldNNN w) = w := by
  apply BitVec.eq_of_getLsbD_eq
  intro i hi
  simp only [getLsbD_wordNNN, opcodeGroup, fieldNNN, BitVec.getLsbD_extractLsb']
  split
  · simp_all
  · simp [show i - 12 < 4 by omega, show 12 + (i - 12) = i by omega]

theorem word_eq_XKK (w : Word) : wordXKK (opcodeGroup w) (fieldX w) (fieldKK w) = w := by
  apply BitVec.eq_of_getLsbD_eq
  intro i hi
  simp only [getLsbD_wordXKK, opcodeGroup, fieldX, fieldKK, BitVec.getLsbD_extractLsb']
  split
  · simp_all
  · split
    · simp_all [show 8 + (i - 8) = i by omega]
    · simp [show i - 8 - 4 < 4 by omega, show 12 + (i - 8 - 4) = i by omega]

theorem word_eq_XYN (w : Word) :
    wordXYN (opcodeGroup w) (fieldX w) (fieldY w) (fieldN w) = w := by
  apply BitVec.eq_of_getLsbD_eq
  intro i hi
  simp only [getLsbD_wordXYN, opcodeGroup, fieldX, fieldY, fieldN, BitVec.getLsbD_extractLsb']
  split
  · simp_all
  · split
    · simp_all [show 4 + (i - 4) = i by omega]
    · split
      · simp_all [show 8 + (i - 4 - 4) = i by omega]
      · simp [show i - 4 - 4 - 4 < 4 by omega, show 12 + (i - 4 - 4 - 4) = i by omega]

/-! ### The masks of the opcode map -/

/-- Mask 0xF000 looks at the group. -/
theorem mask_group (w : Word) : w &&& 0xF000#16 = wordNNN (opcodeGroup w) 0 := by
  apply BitVec.eq_of_getLsbD_eq
  intro i hi
  rw [BitVec.getLsbD_and, getLsbD_wordNNN, opcodeGroup]
  interval_cases i <;> simp

/-- Mask 0xF00F looks at the group and n. -/
theorem mask_group_n (w : Word) : w &&& 0xF00F#16 = wordXYN (opcodeGroup w) 0 0 (fieldN w) := by
  apply BitVec.eq_of_getLsbD_eq
  intro i hi
  rw [BitVec.getLsbD_and, getLsbD_wordXYN, opcodeGroup, fieldN]
  interval_cases i <;> simp

/-- Mask 0xF0FF looks at the group and kk. -/
theorem mask_group_kk (w : Word) : w &&& 0xF0FF#16 = wordXKK (opcodeGroup w) 0 (fieldKK w) := by
  apply BitVec.eq_of_getLsbD_eq
  intro i hi
  rw [BitVec.getLsbD_and, getLsbD_wordXKK, opcodeGroup, fieldKK]
  interval_cases i <;> simp

/-- A word matches a row of mask 0xF000 exactly when it has the row's group. -/
theorem mask_group_iff (w : Word) (g : Nibble) :
    w &&& 0xF000#16 = wordNNN g 0 ↔ opcodeGroup w = g := by
  rw [mask_group]
  exact ⟨fun h => by simpa using congrArg opcodeGroup h, fun h => by rw [h]⟩

/-- A word matches a row of mask 0xF00F exactly when it has the row's group and n. -/
theorem mask_group_n_iff (w : Word) (g n : Nibble) :
    w &&& 0xF00F#16 = wordXYN g 0 0 n ↔ opcodeGroup w = g ∧ fieldN w = n := by
  rw [mask_group_n]
  exact ⟨fun h => ⟨by simpa using congrArg opcodeGroup h, by simpa using congrArg fieldN h⟩,
    fun h => by rw [h.1, h.2]⟩

/-- A word matches a row of mask 0xF0FF exactly when it has the row's group and kk. -/
theorem mask_group_kk_iff (w : Word) (g : Nibble) (k : Byte) :
    w &&& 0xF0FF#16 = wordXKK g 0 k ↔ opcodeGroup w = g ∧ fieldKK w = k := by
  rw [mask_group_kk]
  exact ⟨fun h => ⟨by simpa using congrArg opcodeGroup h, by simpa using congrArg fieldKK h⟩,
    fun h => by rw [h.1, h.2]⟩

/-! ### Bytes -/

/-- The bytes of a word, joined again, are the word (R63, R90). -/
theorem joinBytes_wordBytes (w : Word) : joinBytes (w.extractLsb' 8 8) (w.extractLsb' 0 8) = w := by
  apply BitVec.eq_of_getLsbD_eq
  intro i hi
  simp only [getLsbD_joinBytes, BitVec.getLsbD_extractLsb']
  split
  · simp_all
  · simp [show i - 8 < 8 by omega, show 8 + (i - 8) = i by omega]

/-- The word of two bytes is 256 times the first plus the second (R63). -/
theorem joinBytes_toNat (hi lo : Byte) : (joinBytes hi lo).toNat = hi.toNat * 256 + lo.toNat := by
  have h := lo.isLt
  show (hi ++ lo).toNat = _
  rw [BitVec.toNat_append, Nat.shiftLeft_eq, Nat.mul_comm, ← Nat.two_pow_add_eq_or_of_lt h]

/-! ### The words of the four groups with a sub-selector -/

theorem encode_decodeGroup0 {w : Word} {i : Instr} (h : decodeGroup0 w = some i) : encode i = w := by
  unfold decodeGroup0 at h
  split at h
  · cases h
    simp [encode, *]
  · split at h <;> cases h
    simp [encode, *]

theorem encode_decodeGroup8 {x y n : Nibble} {i : Instr} (h : decodeGroup8 x y n = some i) :
    encode i = wordXYN 8 x y n := by
  unfold decodeGroup8 at h
  repeat' split at h
  all_goals cases h
  all_goals subst_vars; rfl

theorem encode_decodeGroupE {x : Nibble} {k : Byte} {i : Instr} (h : decodeGroupE x k = some i) :
    encode i = wordXKK 0xE x k := by
  unfold decodeGroupE at h
  repeat' split at h
  all_goals cases h
  all_goals subst_vars; rfl

theorem encode_decodeGroupF {x : Nibble} {k : Byte} {i : Instr} (h : decodeGroupF x k = some i) :
    encode i = wordXKK 0xF x k := by
  unfold decodeGroupF at h
  repeat' split at h
  all_goals cases h
  all_goals subst_vars; rfl

end Sys2Proof
end

