-- ==== Sys2Proof/Laws/State.lean ====
section
/-! SUPPORT. What each update of the state leaves in each field: one lemma per field per update, true
by rfl, and the same for the readers getV, byteAt, memRead, pixel and keyAt, so that no later proof
unfolds a record update. -/

namespace Sys2Proof.Machine

variable (s : State)

/-! ### setV -/

@[simp] theorem State.setV_ir (x : Nibble) (b : Byte) : (s.setV x b).ir = s.ir := rfl
@[simp] theorem State.setV_pc (x : Nibble) (b : Byte) : (s.setV x b).pc = s.pc := rfl
@[simp] theorem State.setV_stack (x : Nibble) (b : Byte) : (s.setV x b).stack = s.stack := rfl
@[simp] theorem State.setV_disp (x : Nibble) (b : Byte) : (s.setV x b).disp = s.disp := rfl
@[simp] theorem State.setV_key (x : Nibble) (b : Byte) : (s.setV x b).key = s.key := rfl
@[simp] theorem State.setV_dt (x : Nibble) (b : Byte) : (s.setV x b).dt = s.dt := rfl
@[simp] theorem State.setV_st (x : Nibble) (b : Byte) : (s.setV x b).st = s.st := rfl
@[simp] theorem State.setV_mem (x : Nibble) (b : Byte) : (s.setV x b).mem = s.mem := rfl
@[simp] theorem State.setV_run (x : Nibble) (b : Byte) : (s.setV x b).run = s.run := rfl
@[simp] theorem State.setV_finfo (x : Nibble) (b : Byte) : (s.setV x b).finfo = s.finfo := rfl
@[simp] theorem State.setV_font (x : Nibble) (b : Byte) : (s.setV x b).font = s.font := rfl
@[simp] theorem State.setV_draws (x : Nibble) (b : Byte) : (s.setV x b).draws = s.draws := rfl
@[simp] theorem State.setV_drawCount (x : Nibble) (b : Byte) : (s.setV x b).drawCount = s.drawCount := rfl
@[simp] theorem State.setV_script (x : Nibble) (b : Byte) : (s.setV x b).script = s.script := rfl
@[simp] theorem State.setV_loadOpen (x : Nibble) (b : Byte) : (s.setV x b).loadOpen = s.loadOpen := rfl
@[simp] theorem State.setV_byteAt (x : Nibble) (b : Byte) (n : Nat) : (s.setV x b).byteAt n = s.byteAt n := rfl
@[simp] theorem State.setV_memRead (x : Nibble) (b : Byte) (n : Nat) : (s.setV x b).memRead n = s.memRead n := rfl
@[simp] theorem State.setV_pixel (x : Nibble) (b : Byte) (n : Nat) : (s.setV x b).pixel n = s.pixel n := rfl
@[simp] theorem State.setV_keyAt (x : Nibble) (b : Byte) (r : Nibble) : (s.setV x b).keyAt r = s.keyAt r := rfl

/-! ### setIr -/

@[simp] theorem State.setIr_v (a : Word) : (s.setIr a).v = s.v := rfl
@[simp] theorem State.setIr_ir (a : Word) : (s.setIr a).ir = a := rfl
@[simp] theorem State.setIr_pc (a : Word) : (s.setIr a).pc = s.pc := rfl
@[simp] theorem State.setIr_stack (a : Word) : (s.setIr a).stack = s.stack := rfl
@[simp] theorem State.setIr_disp (a : Word) : (s.setIr a).disp = s.disp := rfl
@[simp] theorem State.setIr_key (a : Word) : (s.setIr a).key = s.key := rfl
@[simp] theorem State.setIr_dt (a : Word) : (s.setIr a).dt = s.dt := rfl
@[simp] theorem State.setIr_st (a : Word) : (s.setIr a).st = s.st := rfl
@[simp] theorem State.setIr_mem (a : Word) : (s.setIr a).mem = s.mem := rfl
@[simp] theorem State.setIr_run (a : Word) : (s.setIr a).run = s.run := rfl
@[simp] theorem State.setIr_finfo (a : Word) : (s.setIr a).finfo = s.finfo := rfl
@[simp] theorem State.setIr_font (a : Word) : (s.setIr a).font = s.font := rfl
@[simp] theorem State.setIr_draws (a : Word) : (s.setIr a).draws = s.draws := rfl
@[simp] theorem State.setIr_drawCount (a : Word) : (s.setIr a).drawCount = s.drawCount := rfl
@[simp] theorem State.setIr_script (a : Word) : (s.setIr a).script = s.script := rfl
@[simp] theorem State.setIr_loadOpen (a : Word) : (s.setIr a).loadOpen = s.loadOpen := rfl
@[simp] theorem State.setIr_getV (a : Word) (r : Nibble) : (s.setIr a).getV r = s.getV r := rfl
@[simp] theorem State.setIr_byteAt (a : Word) (n : Nat) : (s.setIr a).byteAt n = s.byteAt n := rfl
@[simp] theorem State.setIr_memRead (a : Word) (n : Nat) : (s.setIr a).memRead n = s.memRead n := rfl
@[simp] theorem State.setIr_pixel (a : Word) (n : Nat) : (s.setIr a).pixel n = s.pixel n := rfl
@[simp] theorem State.setIr_keyAt (a : Word) (r : Nibble) : (s.setIr a).keyAt r = s.keyAt r := rfl

/-! ### setPc -/

@[simp] theorem State.setPc_v (a : Word) : (s.setPc a).v = s.v := rfl
@[simp] theorem State.setPc_ir (a : Word) : (s.setPc a).ir = s.ir := rfl
@[simp] theorem State.setPc_pc (a : Word) : (s.setPc a).pc = a := rfl
@[simp] theorem State.setPc_stack (a : Word) : (s.setPc a).stack = s.stack := rfl
@[simp] theorem State.setPc_disp (a : Word) : (s.setPc a).disp = s.disp := rfl
@[simp] theorem State.setPc_key (a : Word) : (s.setPc a).key = s.key := rfl
@[simp] theorem State.setPc_dt (a : Word) : (s.setPc a).dt = s.dt := rfl
@[simp] theorem State.setPc_st (a : Word) : (s.setPc a).st = s.st := rfl
@[simp] theorem State.setPc_mem (a : Word) : (s.setPc a).mem = s.mem := rfl
@[simp] theorem State.setPc_run (a : Word) : (s.setPc a).run = s.run := rfl
@[simp] theorem State.setPc_finfo (a : Word) : (s.setPc a).finfo = s.finfo := rfl
@[simp] theorem State.setPc_font (a : Word) : (s.setPc a).font = s.font := rfl
@[simp] theorem State.setPc_draws (a : Word) : (s.setPc a).draws = s.draws := rfl
@[simp] theorem State.setPc_drawCount (a : Word) : (s.setPc a).drawCount = s.drawCount := rfl
@[simp] theorem State.setPc_script (a : Word) : (s.setPc a).script = s.script := rfl
@[simp] theorem State.setPc_loadOpen (a : Word) : (s.setPc a).loadOpen = s.loadOpen := rfl
@[simp] theorem State.setPc_getV (a : Word) (r : Nibble) : (s.setPc a).getV r = s.getV r := rfl
@[simp] theorem State.setPc_byteAt (a : Word) (n : Nat) : (s.setPc a).byteAt n = s.byteAt n := rfl
@[simp] theorem State.setPc_memRead (a : Word) (n : Nat) : (s.setPc a).memRead n = s.memRead n := rfl
@[simp] theorem State.setPc_pixel (a : Word) (n : Nat) : (s.setPc a).pixel n = s.pixel n := rfl
@[simp] theorem State.setPc_keyAt (a : Word) (r : Nibble) : (s.setPc a).keyAt r = s.keyAt r := rfl

/-! ### setDt -/

@[simp] theorem State.setDt_v (b : Byte) : (s.setDt b).v = s.v := rfl
@[simp] theorem State.setDt_ir (b : Byte) : (s.setDt b).ir = s.ir := rfl
@[simp] theorem State.setDt_pc (b : Byte) : (s.setDt b).pc = s.pc := rfl
@[simp] theorem State.setDt_stack (b : Byte) : (s.setDt b).stack = s.stack := rfl
@[simp] theorem State.setDt_disp (b : Byte) : (s.setDt b).disp = s.disp := rfl
@[simp] theorem State.setDt_key (b : Byte) : (s.setDt b).key = s.key := rfl
@[simp] theorem State.setDt_dt (b : Byte) : (s.setDt b).dt = b := rfl
@[simp] theorem State.setDt_st (b : Byte) : (s.setDt b).st = s.st := rfl
@[simp] theorem State.setDt_mem (b : Byte) : (s.setDt b).mem = s.mem := rfl
@[simp] theorem State.setDt_run (b : Byte) : (s.setDt b).run = s.run := rfl
@[simp] theorem State.setDt_finfo (b : Byte) : (s.setDt b).finfo = s.finfo := rfl
@[simp] theorem State.setDt_font (b : Byte) : (s.setDt b).font = s.font := rfl
@[simp] theorem State.setDt_draws (b : Byte) : (s.setDt b).draws = s.draws := rfl
@[simp] theorem State.setDt_drawCount (b : Byte) : (s.setDt b).drawCount = s.drawCount := rfl
@[simp] theorem State.setDt_script (b : Byte) : (s.setDt b).script = s.script := rfl
@[simp] theorem State.setDt_loadOpen (b : Byte) : (s.setDt b).loadOpen = s.loadOpen := rfl
@[simp] theorem State.setDt_getV (b : Byte) (r : Nibble) : (s.setDt b).getV r = s.getV r := rfl
@[simp] theorem State.setDt_byteAt (b : Byte) (n : Nat) : (s.setDt b).byteAt n = s.byteAt n := rfl
@[simp] theorem State.setDt_memRead (b : Byte) (n : Nat) : (s.setDt b).memRead n = s.memRead n := rfl
@[simp] theorem State.setDt_pixel (b : Byte) (n : Nat) : (s.setDt b).pixel n = s.pixel n := rfl
@[simp] theorem State.setDt_keyAt (b : Byte) (r : Nibble) : (s.setDt b).keyAt r = s.keyAt r := rfl

/-! ### setSt -/

@[simp] theorem State.setSt_v (b : Byte) : (s.setSt b).v = s.v := rfl
@[simp] theorem State.setSt_ir (b : Byte) : (s.setSt b).ir = s.ir := rfl
@[simp] theorem State.setSt_pc (b : Byte) : (s.setSt b).pc = s.pc := rfl
@[simp] theorem State.setSt_stack (b : Byte) : (s.setSt b).stack = s.stack := rfl
@[simp] theorem State.setSt_disp (b : Byte) : (s.setSt b).disp = s.disp := rfl
@[simp] theorem State.setSt_key (b : Byte) : (s.setSt b).key = s.key := rfl
@[simp] theorem State.setSt_dt (b : Byte) : (s.setSt b).dt = s.dt := rfl
@[simp] theorem State.setSt_st (b : Byte) : (s.setSt b).st = b := rfl
@[simp] theorem State.setSt_mem (b : Byte) : (s.setSt b).mem = s.mem := rfl
@[simp] theorem State.setSt_run (b : Byte) : (s.setSt b).run = s.run := rfl
@[simp] theorem State.setSt_finfo (b : Byte) : (s.setSt b).finfo = s.finfo := rfl
@[simp] theorem State.setSt_font (b : Byte) : (s.setSt b).font = s.font := rfl
@[simp] theorem State.setSt_draws (b : Byte) : (s.setSt b).draws = s.draws := rfl
@[simp] theorem State.setSt_drawCount (b : Byte) : (s.setSt b).drawCount = s.drawCount := rfl
@[simp] theorem State.setSt_script (b : Byte) : (s.setSt b).script = s.script := rfl
@[simp] theorem State.setSt_loadOpen (b : Byte) : (s.setSt b).loadOpen = s.loadOpen := rfl
@[simp] theorem State.setSt_getV (b : Byte) (r : Nibble) : (s.setSt b).getV r = s.getV r := rfl
@[simp] theorem State.setSt_byteAt (b : Byte) (n : Nat) : (s.setSt b).byteAt n = s.byteAt n := rfl
@[simp] theorem State.setSt_memRead (b : Byte) (n : Nat) : (s.setSt b).memRead n = s.memRead n := rfl
@[simp] theorem State.setSt_pixel (b : Byte) (n : Nat) : (s.setSt b).pixel n = s.pixel n := rfl
@[simp] theorem State.setSt_keyAt (b : Byte) (r : Nibble) : (s.setSt b).keyAt r = s.keyAt r := rfl

/-! ### setRun -/

@[simp] theorem State.setRun_v (r : RunState) : (s.setRun r).v = s.v := rfl
@[simp] theorem State.setRun_ir (r : RunState) : (s.setRun r).ir = s.ir := rfl
@[simp] theorem State.setRun_pc (r : RunState) : (s.setRun r).pc = s.pc := rfl
@[simp] theorem State.setRun_stack (r : RunState) : (s.setRun r).stack = s.stack := rfl
@[simp] theorem State.setRun_disp (r : RunState) : (s.setRun r).disp = s.disp := rfl
@[simp] theorem State.setRun_key (r : RunState) : (s.setRun r).key = s.key := rfl
@[simp] theorem State.setRun_dt (r : RunState) : (s.setRun r).dt = s.dt := rfl
@[simp] theorem State.setRun_st (r : RunState) : (s.setRun r).st = s.st := rfl
@[simp] theorem State.setRun_mem (r : RunState) : (s.setRun r).mem = s.mem := rfl
@[simp] theorem State.setRun_run (r : RunState) : (s.setRun r).run = r := rfl
@[simp] theorem State.setRun_finfo (r : RunState) : (s.setRun r).finfo = s.finfo := rfl
@[simp] theorem State.setRun_font (r : RunState) : (s.setRun r).font = s.font := rfl
@[simp] theorem State.setRun_draws (r : RunState) : (s.setRun r).draws = s.draws := rfl
@[simp] theorem State.setRun_drawCount (r : RunState) : (s.setRun r).drawCount = s.drawCount := rfl
@[simp] theorem State.setRun_script (r : RunState) : (s.setRun r).script = s.script := rfl
@[simp] theorem State.setRun_loadOpen (r : RunState) : (s.setRun r).loadOpen = s.loadOpen := rfl
@[simp] theorem State.setRun_getV (r : RunState) (q : Nibble) : (s.setRun r).getV q = s.getV q := rfl
@[simp] theorem State.setRun_byteAt (r : RunState) (n : Nat) : (s.setRun r).byteAt n = s.byteAt n := rfl
@[simp] theorem State.setRun_memRead (r : RunState) (n : Nat) : (s.setRun r).memRead n = s.memRead n := rfl
@[simp] theorem State.setRun_pixel (r : RunState) (n : Nat) : (s.setRun r).pixel n = s.pixel n := rfl
@[simp] theorem State.setRun_keyAt (r : RunState) (q : Nibble) : (s.setRun r).keyAt q = s.keyAt q := rfl

/-! ### skip -/

@[simp] theorem State.skip_v : (s.skip).v = s.v := rfl
@[simp] theorem State.skip_ir : (s.skip).ir = s.ir := rfl
@[simp] theorem State.skip_pc : (s.skip).pc = s.pc + 2 := rfl
@[simp] theorem State.skip_stack : (s.skip).stack = s.stack := rfl
@[simp] theorem State.skip_disp : (s.skip).disp = s.disp := rfl
@[simp] theorem State.skip_key : (s.skip).key = s.key := rfl
@[simp] theorem State.skip_dt : (s.skip).dt = s.dt := rfl
@[simp] theorem State.skip_st : (s.skip).st = s.st := rfl
@[simp] theorem State.skip_mem : (s.skip).mem = s.mem := rfl
@[simp] theorem State.skip_run : (s.skip).run = s.run := rfl
@[simp] theorem State.skip_finfo : (s.skip).finfo = s.finfo := rfl
@[simp] theorem State.skip_font : (s.skip).font = s.font := rfl
@[simp] theorem State.skip_draws : (s.skip).draws = s.draws := rfl
@[simp] theorem State.skip_drawCount : (s.skip).drawCount = s.drawCount := rfl
@[simp] theorem State.skip_script : (s.skip).script = s.script := rfl
@[simp] theorem State.skip_loadOpen : (s.skip).loadOpen = s.loadOpen := rfl
@[simp] theorem State.skip_getV (r : Nibble) : (s.skip).getV r = s.getV r := rfl
@[simp] theorem State.skip_byteAt (n : Nat) : (s.skip).byteAt n = s.byteAt n := rfl
@[simp] theorem State.skip_memRead (n : Nat) : (s.skip).memRead n = s.memRead n := rfl
@[simp] theorem State.skip_pixel (n : Nat) : (s.skip).pixel n = s.pixel n := rfl
@[simp] theorem State.skip_keyAt (r : Nibble) : (s.skip).keyAt r = s.keyAt r := rfl

/-! ### enterFault -/

@[simp] theorem State.enterFault_v (k : ErrorKind) (p : Word) (w : Option Word) (a : Option Nat) : (s.enterFault k p w a).v = s.v := rfl
@[simp] theorem State.enterFault_ir (k : ErrorKind) (p : Word) (w : Option Word) (a : Option Nat) : (s.enterFault k p w a).ir = s.ir := rfl
@[simp] theorem State.enterFault_pc (k : ErrorKind) (p : Word) (w : Option Word) (a : Option Nat) : (s.enterFault k p w a).pc = s.pc := rfl
@[simp] theorem State.enterFault_stack (k : ErrorKind) (p : Word) (w : Option Word) (a : Option Nat) : (s.enterFault k p w a).stack = s.stack := rfl
@[simp] theorem State.enterFault_disp (k : ErrorKind) (p : Word) (w : Option Word) (a : Option Nat) : (s.enterFault k p w a).disp = s.disp := rfl
@[simp] theorem State.enterFault_key (k : ErrorKind) (p : Word) (w : Option Word) (a : Option Nat) : (s.enterFault k p w a).key = s.key := rfl
@[simp] theorem State.enterFault_dt (k : ErrorKind) (p : Word) (w : Option Word) (a : Option Nat) : (s.enterFault k p w a).dt = s.dt := rfl
@[simp] theorem State.enterFault_st (k : ErrorKind) (p : Word) (w : Option Word) (a : Option Nat) : (s.enterFault k p w a).st = s.st := rfl
@[simp] theorem State.enterFault_mem (k : ErrorKind) (p : Word) (w : Option Word) (a : Option Nat) : (s.enterFault k p w a).mem = s.mem := rfl
@[simp] theorem State.enterFault_run (k : ErrorKind) (p : Word) (w : Option Word) (a : Option Nat) : (s.enterFault k p w a).run = .faulted k := rfl
@[simp] theorem State.enterFault_finfo (k : ErrorKind) (p : Word) (w : Option Word) (a : Option Nat) : (s.enterFault k p w a).finfo = some ⟨p, w, a⟩ := rfl
@[simp] theorem State.enterFault_font (k : ErrorKind) (p : Word) (w : Option Word) (a : Option Nat) : (s.enterFault k p w a).font = s.font := rfl
@[simp] theorem State.enterFault_draws (k : ErrorKind) (p : Word) (w : Option Word) (a : Option Nat) : (s.enterFault k p w a).draws = s.draws := rfl
@[simp] theorem State.enterFault_drawCount (k : ErrorKind) (p : Word) (w : Option Word) (a : Option Nat) : (s.enterFault k p w a).drawCount = s.drawCount := rfl
@[simp] theorem State.enterFault_script (k : ErrorKind) (p : Word) (w : Option Word) (a : Option Nat) : (s.enterFault k p w a).script = s.script := rfl
@[simp] theorem State.enterFault_loadOpen (k : ErrorKind) (p : Word) (w : Option Word) (a : Option Nat) : (s.enterFault k p w a).loadOpen = s.loadOpen := rfl
@[simp] theorem State.enterFault_getV (k : ErrorKind) (p : Word) (w : Option Word) (a : Option Nat) (r : Nibble) : (s.enterFault k p w a).getV r = s.getV r := rfl
@[simp] theorem State.enterFault_byteAt (k : ErrorKind) (p : Word) (w : Option Word) (a : Option Nat) (n : Nat) : (s.enterFault k p w a).byteAt n = s.byteAt n := rfl
@[simp] theorem State.enterFault_memRead (k : ErrorKind) (p : Word) (w : Option Word) (a : Option Nat) (n : Nat) : (s.enterFault k p w a).memRead n = s.memRead n := rfl
@[simp] theorem State.enterFault_pixel (k : ErrorKind) (p : Word) (w : Option Word) (a : Option Nat) (n : Nat) : (s.enterFault k p w a).pixel n = s.pixel n := rfl
@[simp] theorem State.enterFault_keyAt (k : ErrorKind) (p : Word) (w : Option Word) (a : Option Nat) (r : Nibble) : (s.enterFault k p w a).keyAt r = s.keyAt r := rfl

/-! ### raise -/

@[simp] theorem State.raise_v (k : ErrorKind) (i : Instr) (a : Option Nat) : (s.raise k i a).v = s.v := rfl
@[simp] theorem State.raise_ir (k : ErrorKind) (i : Instr) (a : Option Nat) : (s.raise k i a).ir = s.ir := rfl
@[simp] theorem State.raise_pc (k : ErrorKind) (i : Instr) (a : Option Nat) : (s.raise k i a).pc = s.pc := rfl
@[simp] theorem State.raise_stack (k : ErrorKind) (i : Instr) (a : Option Nat) : (s.raise k i a).stack = s.stack := rfl
@[simp] theorem State.raise_disp (k : ErrorKind) (i : Instr) (a : Option Nat) : (s.raise k i a).disp = s.disp := rfl
@[simp] theorem State.raise_key (k : ErrorKind) (i : Instr) (a : Option Nat) : (s.raise k i a).key = s.key := rfl
@[simp] theorem State.raise_dt (k : ErrorKind) (i : Instr) (a : Option Nat) : (s.raise k i a).dt = s.dt := rfl
@[simp] theorem State.raise_st (k : ErrorKind) (i : Instr) (a : Option Nat) : (s.raise k i a).st = s.st := rfl
@[simp] theorem State.raise_mem (k : ErrorKind) (i : Instr) (a : Option Nat) : (s.raise k i a).mem = s.mem := rfl
@[simp] theorem State.raise_run (k : ErrorKind) (i : Instr) (a : Option Nat) : (s.raise k i a).run = .faulted k := rfl
@[simp] theorem State.raise_finfo (k : ErrorKind) (i : Instr) (a : Option Nat) : (s.raise k i a).finfo = some ⟨s.pc - 2, some (encode i), a⟩ := rfl
@[simp] theorem State.raise_font (k : ErrorKind) (i : Instr) (a : Option Nat) : (s.raise k i a).font = s.font := rfl
@[simp] theorem State.raise_draws (k : ErrorKind) (i : Instr) (a : Option Nat) : (s.raise k i a).draws = s.draws := rfl
@[simp] theorem State.raise_drawCount (k : ErrorKind) (i : Instr) (a : Option Nat) : (s.raise k i a).drawCount = s.drawCount := rfl
@[simp] theorem State.raise_script (k : ErrorKind) (i : Instr) (a : Option Nat) : (s.raise k i a).script = s.script := rfl
@[simp] theorem State.raise_loadOpen (k : ErrorKind) (i : Instr) (a : Option Nat) : (s.raise k i a).loadOpen = s.loadOpen := rfl
@[simp] theorem State.raise_getV (k : ErrorKind) (i : Instr) (a : Option Nat) (r : Nibble) : (s.raise k i a).getV r = s.getV r := rfl
@[simp] theorem State.raise_byteAt (k : ErrorKind) (i : Instr) (a : Option Nat) (n : Nat) : (s.raise k i a).byteAt n = s.byteAt n := rfl
@[simp] theorem State.raise_memRead (k : ErrorKind) (i : Instr) (a : Option Nat) (n : Nat) : (s.raise k i a).memRead n = s.memRead n := rfl
@[simp] theorem State.raise_pixel (k : ErrorKind) (i : Instr) (a : Option Nat) (n : Nat) : (s.raise k i a).pixel n = s.pixel n := rfl
@[simp] theorem State.raise_keyAt (k : ErrorKind) (i : Instr) (a : Option Nat) (r : Nibble) : (s.raise k i a).keyAt r = s.keyAt r := rfl

/-! ### setPixel -/

@[simp] theorem State.setPixel_v (i : Nat) (p : Bool) : (s.setPixel i p).v = s.v := rfl
@[simp] theorem State.setPixel_ir (i : Nat) (p : Bool) : (s.setPixel i p).ir = s.ir := rfl
@[simp] theorem State.setPixel_pc (i : Nat) (p : Bool) : (s.setPixel i p).pc = s.pc := rfl
@[simp] theorem State.setPixel_stack (i : Nat) (p : Bool) : (s.setPixel i p).stack = s.stack := rfl
@[simp] theorem State.setPixel_disp (i : Nat) (p : Bool) : (s.setPixel i p).disp = Grid.put s.disp i p := rfl
@[simp] theorem State.setPixel_key (i : Nat) (p : Bool) : (s.setPixel i p).key = s.key := rfl
@[simp] theorem State.setPixel_dt (i : Nat) (p : Bool) : (s.setPixel i p).dt = s.dt := rfl
@[simp] theorem State.setPixel_st (i : Nat) (p : Bool) : (s.setPixel i p).st = s.st := rfl
@[simp] theorem State.setPixel_mem (i : Nat) (p : Bool) : (s.setPixel i p).mem = s.mem := rfl
@[simp] theorem State.setPixel_run (i : Nat) (p : Bool) : (s.setPixel i p).run = s.run := rfl
@[simp] theorem State.setPixel_finfo (i : Nat) (p : Bool) : (s.setPixel i p).finfo = s.finfo := rfl
@[simp] theorem State.setPixel_font (i : Nat) (p : Bool) : (s.setPixel i p).font = s.font := rfl
@[simp] theorem State.setPixel_draws (i : Nat) (p : Bool) : (s.setPixel i p).draws = s.draws := rfl
@[simp] theorem State.setPixel_drawCount (i : Nat) (p : Bool) : (s.setPixel i p).drawCount = s.drawCount := rfl
@[simp] theorem State.setPixel_script (i : Nat) (p : Bool) : (s.setPixel i p).script = s.script := rfl
@[simp] theorem State.setPixel_loadOpen (i : Nat) (p : Bool) : (s.setPixel i p).loadOpen = s.loadOpen := rfl
@[simp] theorem State.setPixel_getV (i : Nat) (p : Bool) (r : Nibble) : (s.setPixel i p).getV r = s.getV r := rfl
@[simp] theorem State.setPixel_byteAt (i : Nat) (p : Bool) (n : Nat) : (s.setPixel i p).byteAt n = s.byteAt n := rfl
@[simp] theorem State.setPixel_memRead (i : Nat) (p : Bool) (n : Nat) : (s.setPixel i p).memRead n = s.memRead n := rfl
@[simp] theorem State.setPixel_keyAt (i : Nat) (p : Bool) (r : Nibble) : (s.setPixel i p).keyAt r = s.keyAt r := rfl

/-! ### clearDisplay -/

@[simp] theorem State.clearDisplay_v : (s.clearDisplay).v = s.v := rfl
@[simp] theorem State.clearDisplay_ir : (s.clearDisplay).ir = s.ir := rfl
@[simp] theorem State.clearDisplay_pc : (s.clearDisplay).pc = s.pc := rfl
@[simp] theorem State.clearDisplay_stack : (s.clearDisplay).stack = s.stack := rfl
@[simp] theorem State.clearDisplay_disp : (s.clearDisplay).disp = Vector.replicate 32 0 := rfl
@[simp] theorem State.clearDisplay_key : (s.clearDisplay).key = s.key := rfl
@[simp] theorem State.clearDisplay_dt : (s.clearDisplay).dt = s.dt := rfl
@[simp] theorem State.clearDisplay_st : (s.clearDisplay).st = s.st := rfl
@[simp] theorem State.clearDisplay_mem : (s.clearDisplay).mem = s.mem := rfl
@[simp] theorem State.clearDisplay_run : (s.clearDisplay).run = s.run := rfl
@[simp] theorem State.clearDisplay_finfo : (s.clearDisplay).finfo = s.finfo := rfl
@[simp] theorem State.clearDisplay_font : (s.clearDisplay).font = s.font := rfl
@[simp] theorem State.clearDisplay_draws : (s.clearDisplay).draws = s.draws := rfl
@[simp] theorem State.clearDisplay_drawCount : (s.clearDisplay).drawCount = s.drawCount := rfl
@[simp] theorem State.clearDisplay_script : (s.clearDisplay).script = s.script := rfl
@[simp] theorem State.clearDisplay_loadOpen : (s.clearDisplay).loadOpen = s.loadOpen := rfl
@[simp] theorem State.clearDisplay_getV (r : Nibble) : (s.clearDisplay).getV r = s.getV r := rfl
@[simp] theorem State.clearDisplay_byteAt (n : Nat) : (s.clearDisplay).byteAt n = s.byteAt n := rfl
@[simp] theorem State.clearDisplay_memRead (n : Nat) : (s.clearDisplay).memRead n = s.memRead n := rfl
@[simp] theorem State.clearDisplay_keyAt (r : Nibble) : (s.clearDisplay).keyAt r = s.keyAt r := rfl

/-! ### setKey -/

@[simp] theorem State.setKey_v (k : Nibble) (p : Bool) : (s.setKey k p).v = s.v := rfl
@[simp] theorem State.setKey_ir (k : Nibble) (p : Bool) : (s.setKey k p).ir = s.ir := rfl
@[simp] theorem State.setKey_pc (k : Nibble) (p : Bool) : (s.setKey k p).pc = s.pc := rfl
@[simp] theorem State.setKey_stack (k : Nibble) (p : Bool) : (s.setKey k p).stack = s.stack := rfl
@[simp] theorem State.setKey_disp (k : Nibble) (p : Bool) : (s.setKey k p).disp = s.disp := rfl
@[simp] theorem State.setKey_dt (k : Nibble) (p : Bool) : (s.setKey k p).dt = s.dt := rfl
@[simp] theorem State.setKey_st (k : Nibble) (p : Bool) : (s.setKey k p).st = s.st := rfl
@[simp] theorem State.setKey_mem (k : Nibble) (p : Bool) : (s.setKey k p).mem = s.mem := rfl
@[simp] theorem State.setKey_run (k : Nibble) (p : Bool) : (s.setKey k p).run = s.run := rfl
@[simp] theorem State.setKey_finfo (k : Nibble) (p : Bool) : (s.setKey k p).finfo = s.finfo := rfl
@[simp] theorem State.setKey_font (k : Nibble) (p : Bool) : (s.setKey k p).font = s.font := rfl
@[simp] theorem State.setKey_draws (k : Nibble) (p : Bool) : (s.setKey k p).draws = s.draws := rfl
@[simp] theorem State.setKey_drawCount (k : Nibble) (p : Bool) : (s.setKey k p).drawCount = s.drawCount := rfl
@[simp] theorem State.setKey_script (k : Nibble) (p : Bool) : (s.setKey k p).script = s.script := rfl
@[simp] theorem State.setKey_loadOpen (k : Nibble) (p : Bool) : (s.setKey k p).loadOpen = s.loadOpen := rfl
@[simp] theorem State.setKey_getV (k : Nibble) (p : Bool) (r : Nibble) : (s.setKey k p).getV r = s.getV r := rfl
@[simp] theorem State.setKey_byteAt (k : Nibble) (p : Bool) (n : Nat) : (s.setKey k p).byteAt n = s.byteAt n := rfl
@[simp] theorem State.setKey_memRead (k : Nibble) (p : Bool) (n : Nat) : (s.setKey k p).memRead n = s.memRead n := rfl
@[simp] theorem State.setKey_pixel (k : Nibble) (p : Bool) (n : Nat) : (s.setKey k p).pixel n = s.pixel n := rfl

/-! ### advance -/

@[simp] theorem State.advance_v : (s.advance).v = s.v := rfl
@[simp] theorem State.advance_ir : (s.advance).ir = s.ir := rfl
@[simp] theorem State.advance_pc : (s.advance).pc = s.pc + 2 := rfl
@[simp] theorem State.advance_stack : (s.advance).stack = s.stack := rfl
@[simp] theorem State.advance_disp : (s.advance).disp = s.disp := rfl
@[simp] theorem State.advance_key : (s.advance).key = s.key := rfl
@[simp] theorem State.advance_dt : (s.advance).dt = s.dt := rfl
@[simp] theorem State.advance_st : (s.advance).st = s.st := rfl
@[simp] theorem State.advance_mem : (s.advance).mem = s.mem := rfl
@[simp] theorem State.advance_run : (s.advance).run = s.run := rfl
@[simp] theorem State.advance_finfo : (s.advance).finfo = s.finfo := rfl
@[simp] theorem State.advance_font : (s.advance).font = s.font := rfl
@[simp] theorem State.advance_draws : (s.advance).draws = s.draws := rfl
@[simp] theorem State.advance_drawCount : (s.advance).drawCount = s.drawCount := rfl
@[simp] theorem State.advance_script : (s.advance).script = s.script := rfl
@[simp] theorem State.advance_loadOpen : (s.advance).loadOpen = false := rfl
@[simp] theorem State.advance_getV (r : Nibble) : (s.advance).getV r = s.getV r := rfl
@[simp] theorem State.advance_byteAt (n : Nat) : (s.advance).byteAt n = s.byteAt n := rfl
@[simp] theorem State.advance_memRead (n : Nat) : (s.advance).memRead n = s.memRead n := rfl
@[simp] theorem State.advance_pixel (n : Nat) : (s.advance).pixel n = s.pixel n := rfl
@[simp] theorem State.advance_keyAt (r : Nibble) : (s.advance).keyAt r = s.keyAt r := rfl

/-! ### tick -/

@[simp] theorem State.tick_v : (s.tick).v = s.v := rfl
@[simp] theorem State.tick_ir : (s.tick).ir = s.ir := rfl
@[simp] theorem State.tick_pc : (s.tick).pc = s.pc := rfl
@[simp] theorem State.tick_stack : (s.tick).stack = s.stack := rfl
@[simp] theorem State.tick_disp : (s.tick).disp = s.disp := rfl
@[simp] theorem State.tick_key : (s.tick).key = s.key := rfl
@[simp] theorem State.tick_dt : (s.tick).dt = tickTimer s.dt := rfl
@[simp] theorem State.tick_st : (s.tick).st = tickTimer s.st := rfl
@[simp] theorem State.tick_mem : (s.tick).mem = s.mem := rfl
@[simp] theorem State.tick_run : (s.tick).run = s.run := rfl
@[simp] theorem State.tick_finfo : (s.tick).finfo = s.finfo := rfl
@[simp] theorem State.tick_font : (s.tick).font = s.font := rfl
@[simp] theorem State.tick_draws : (s.tick).draws = s.draws := rfl
@[simp] theorem State.tick_drawCount : (s.tick).drawCount = s.drawCount := rfl
@[simp] theorem State.tick_script : (s.tick).script = s.script := rfl
@[simp] theorem State.tick_loadOpen : (s.tick).loadOpen = s.loadOpen := rfl
@[simp] theorem State.tick_getV (r : Nibble) : (s.tick).getV r = s.getV r := rfl
@[simp] theorem State.tick_byteAt (n : Nat) : (s.tick).byteAt n = s.byteAt n := rfl
@[simp] theorem State.tick_memRead (n : Nat) : (s.tick).memRead n = s.memRead n := rfl
@[simp] theorem State.tick_pixel (n : Nat) : (s.tick).pixel n = s.pixel n := rfl
@[simp] theorem State.tick_keyAt (r : Nibble) : (s.tick).keyAt r = s.keyAt r := rfl

/-! ### ready -/

@[simp] theorem State.ready_v : (s.ready).v = s.v := rfl
@[simp] theorem State.ready_ir : (s.ready).ir = s.ir := rfl
@[simp] theorem State.ready_pc : (s.ready).pc = s.pc + 2 := rfl
@[simp] theorem State.ready_stack : (s.ready).stack = s.stack := rfl
@[simp] theorem State.ready_disp : (s.ready).disp = s.disp := rfl
@[simp] theorem State.ready_key : (s.ready).key = s.key := rfl
@[simp] theorem State.ready_dt : (s.ready).dt = tickTimer s.dt := rfl
@[simp] theorem State.ready_st : (s.ready).st = tickTimer s.st := rfl
@[simp] theorem State.ready_mem : (s.ready).mem = s.mem := rfl
@[simp] theorem State.ready_run : (s.ready).run = s.run := rfl
@[simp] theorem State.ready_finfo : (s.ready).finfo = s.finfo := rfl
@[simp] theorem State.ready_font : (s.ready).font = s.font := rfl
@[simp] theorem State.ready_draws : (s.ready).draws = s.draws := rfl
@[simp] theorem State.ready_drawCount : (s.ready).drawCount = s.drawCount := rfl
@[simp] theorem State.ready_script : (s.ready).script = s.script := rfl
@[simp] theorem State.ready_loadOpen : (s.ready).loadOpen = false := rfl
@[simp] theorem State.ready_getV (r : Nibble) : (s.ready).getV r = s.getV r := rfl
@[simp] theorem State.ready_byteAt (n : Nat) : (s.ready).byteAt n = s.byteAt n := rfl
@[simp] theorem State.ready_memRead (n : Nat) : (s.ready).memRead n = s.memRead n := rfl
@[simp] theorem State.ready_pixel (n : Nat) : (s.ready).pixel n = s.pixel n := rfl
@[simp] theorem State.ready_keyAt (r : Nibble) : (s.ready).keyAt r = s.keyAt r := rfl

/-! ### popScript -/

@[simp] theorem State.popScript_v : (s.popScript).v = s.v := rfl
@[simp] theorem State.popScript_ir : (s.popScript).ir = s.ir := rfl
@[simp] theorem State.popScript_pc : (s.popScript).pc = s.pc := rfl
@[simp] theorem State.popScript_stack : (s.popScript).stack = s.stack := rfl
@[simp] theorem State.popScript_disp : (s.popScript).disp = s.disp := rfl
@[simp] theorem State.popScript_key : (s.popScript).key = s.key := rfl
@[simp] theorem State.popScript_dt : (s.popScript).dt = s.dt := rfl
@[simp] theorem State.popScript_st : (s.popScript).st = s.st := rfl
@[simp] theorem State.popScript_mem : (s.popScript).mem = s.mem := rfl
@[simp] theorem State.popScript_run : (s.popScript).run = s.run := rfl
@[simp] theorem State.popScript_finfo : (s.popScript).finfo = s.finfo := rfl
@[simp] theorem State.popScript_font : (s.popScript).font = s.font := rfl
@[simp] theorem State.popScript_draws : (s.popScript).draws = s.draws := rfl
@[simp] theorem State.popScript_drawCount : (s.popScript).drawCount = s.drawCount := rfl
@[simp] theorem State.popScript_script : (s.popScript).script = s.script.tail := rfl
@[simp] theorem State.popScript_loadOpen : (s.popScript).loadOpen = s.loadOpen := rfl
@[simp] theorem State.popScript_getV (r : Nibble) : (s.popScript).getV r = s.getV r := rfl
@[simp] theorem State.popScript_byteAt (n : Nat) : (s.popScript).byteAt n = s.byteAt n := rfl
@[simp] theorem State.popScript_memRead (n : Nat) : (s.popScript).memRead n = s.memRead n := rfl
@[simp] theorem State.popScript_pixel (n : Nat) : (s.popScript).pixel n = s.pixel n := rfl
@[simp] theorem State.popScript_keyAt (r : Nibble) : (s.popScript).keyAt r = s.keyAt r := rfl

/-! ### Registers and keys after a write -/

@[simp] theorem State.getV_setV (x r : Nibble) (b : Byte) :
    (s.setV x b).getV r = if r = x then b else s.getV r := by
  unfold State.getV State.setV
  by_cases h : r = x
  · subst h; simp
  · have : x.toNat ≠ r.toNat := fun e => h (BitVec.eq_of_toNat_eq e.symm)
    simp [h, this]

@[simp] theorem State.keyAt_setKey (k r : Nibble) (p : Bool) :
    (s.setKey k p).keyAt r = if r = k then p else s.keyAt r := by
  unfold State.keyAt State.setKey
  by_cases h : r = k
  · subst h; simp
  · have : k.toNat ≠ r.toNat := fun e => h (BitVec.eq_of_toNat_eq e.symm)
    simp [h, this]

/-- Two states with the same registers as read by getV have the same register file. -/
theorem State.v_ext (s t : State) (h : ∀ r, t.getV r = s.getV r) : t.v = s.v := by
  apply Vector.ext
  intro i hi
  have := h (BitVec.ofNat 4 i)
  simpa [State.getV, Nat.mod_eq_of_lt hi] using this

theorem State.skipIf_eq (c : Bool) : s.skipIf c = s.setPc (if c then s.pc + 2 else s.pc) := by
  unfold State.skipIf State.skip
  cases c <;> rfl

/-! ### Pixels after a write -/

theorem getLsbD_rowPut (row : BitVec 64) (x j : Nat) (p : Bool) (hx : x < 64) :
    (rowPut row x p).getLsbD j = if j = x then p else row.getLsbD j := by
  unfold rowPut
  by_cases h : j = x
  · subst h; cases p <;> simp [hx]
  · by_cases hj : j < 64
    · cases p <;> simp [h, hj] <;> omega
    · have := BitVec.getLsbD_of_ge row j (by omega)
      cases p <;> simp [h, hj, this]

@[simp] theorem Grid.get_put (d : Grid) (i j : Nat) (p : Bool) (hi : i < 2048) :
    Grid.get (Grid.put d i p) j = if j = i then p else Grid.get d j := by
  have hr : i / Config.dispW < 32 := by simp only [Config.dispW]; omega
  unfold Grid.put
  rw [Vector.getElem?_eq_getElem hr]
  simp only [Grid.get, Vector.getElem?_setIfInBounds]
  by_cases hq : i / Config.dispW = j / Config.dispW
  · rw [← hq]
    have hm : i % Config.dispW < 64 := Nat.mod_lt _ (by decide)
    simp only [hr, if_true, Vector.getElem?_eq_getElem hr]
    rw [getLsbD_rowPut _ _ _ _ hm]
    have : (j % Config.dispW = i % Config.dispW) ↔ j = i := by
      simp only [Config.dispW] at *; omega
    simp [this]
  · have : j ≠ i := fun e => hq (by rw [e])
    simp [hq, this]

@[simp] theorem State.pixel_setPixel (i j : Nat) (p : Bool) (hi : i < 2048) :
    (s.setPixel i p).pixel j = if j = i then p else s.pixel j :=
  Grid.get_put s.disp i j p hi

theorem Grid.get_out (d : Grid) (i : Nat) (hi : 2048 ≤ i) : Grid.get d i = false := by
  have hr : ¬ i / Config.dispW < 32 := by simp only [Config.dispW]; omega
  simp [Grid.get, hr]

@[simp] theorem State.clearDisplay_pixel (n : Nat) : s.clearDisplay.pixel n = false := by
  simp only [State.pixel, State.clearDisplay, Grid.get]
  split
  · next row h =>
    have := (Vector.getElem?_eq_some_iff.mp h).2
    simp at this
    simp [← this]
  · rfl

/-- Two grids with the same cells are the same grid. -/
theorem Grid.ext_get (d e : Grid) (h : ∀ i, Grid.get d i = Grid.get e i) : d = e := by
  apply Vector.ext
  intro r hr
  apply BitVec.eq_of_getLsbD_eq
  intro c hc
  have := h (r * 64 + c)
  have h1 : (r * 64 + c) / Config.dispW = r := by simp only [Config.dispW]; omega
  have h2 : (r * 64 + c) % Config.dispW = c := by simp only [Config.dispW]; omega
  simpa [Grid.get, h1, h2, hr] using this

end Sys2Proof.Machine
end

