-- ==== Sys2Proof/Laws/Memory.lean ====
section
/-! SUPPORT. Memory: a read after a write, the canonical form kept by every memory operation, and
canonical memories that read alike are equal. -/

namespace Sys2Proof.Machine

variable (font : Config.Font)

/-- What an address reads as at power-on: FONT from FONT_BASE to FONT_END, zero elsewhere (R33). -/
theorem Memory.unlisted_eq (a : Nat) :
    Memory.unlisted font a =
      if Config.fontBase ≤ a ∧ a ≤ Config.fontEnd then Config.fontByte font (a - Config.fontBase)
      else 0 := by
  unfold Memory.unlisted
  by_cases h1 : Config.fontBase ≤ a
  · by_cases h2 : a ≤ Config.fontEnd
    · rw [if_pos h1, if_pos ⟨h1, h2⟩]
    · have h3 : ¬ (a - Config.fontBase) / Config.glyphStride < 16 := by
        simp only [Config.fontBase, Config.fontEnd, Config.glyphStride] at *
        omega
      rw [if_pos h1, if_neg (fun h => h2 h.2)]
      simp [Config.fontByte, h3]
  · rw [if_neg h1, if_neg (fun h => h1 h.1)]

theorem Memory.read_cons (a : Nat) (x : Byte) (m : Memory) (b : Nat)
    (hm : Memory.read font m a = Memory.unlisted font a) :
    Memory.read font (Memory.cons font a x m) b = if b = a then x else Memory.read font m b := by
  unfold Memory.cons
  by_cases hx : x = Memory.unlisted font a
  · by_cases hb : b = a
    · subst hb; simp [hx, hm]
    · simp [hx, hb]
  · simp [hx, Memory.read]

theorem Memory.wfFrom_weaken {low low' : Nat} (h : low' ≤ low) (m : Memory)
    (hm : Memory.wfFrom font low m = true) : Memory.wfFrom font low' m = true := by
  cases m with
  | nil => rfl
  | cons c rest =>
    simp only [Memory.wfFrom, Bool.and_eq_true, decide_eq_true_eq] at hm ⊢
    exact ⟨⟨⟨by omega, hm.1.1.2⟩, hm.1.2⟩, hm.2⟩

/-- Below its first address a canonical memory reads as if nothing were listed. -/
theorem Memory.read_below {low : Nat} (m : Memory) (hm : Memory.wfFrom font low m = true)
    {a : Nat} (ha : a < low) : Memory.read font m a = Memory.unlisted font a := by
  induction m generalizing low with
  | nil => rfl
  | cons c rest ih =>
    obtain ⟨b, u⟩ := c
    simp only [Memory.wfFrom, Bool.and_eq_true, decide_eq_true_eq] at hm
    have : a ≠ b := by omega
    simp only [Memory.read, if_neg this]
    exact ih hm.2 (by omega)

/-- A read after a write: the byte written at that address, the byte before elsewhere. -/
theorem Memory.read_write_from {low : Nat} (m : Memory) (hm : Memory.wfFrom font low m = true)
    (a : Nat) (x : Byte) (b : Nat) :
    Memory.read font (Memory.write font a x m) b = if b = a then x else Memory.read font m b := by
  induction m generalizing low with
  | nil => exact Memory.read_cons font a x [] b rfl
  | cons c rest ih =>
    obtain ⟨d, u⟩ := c
    simp only [Memory.wfFrom, Bool.and_eq_true, decide_eq_true_eq] at hm
    unfold Memory.write
    by_cases h1 : a < d
    · simp only [if_pos h1]
      apply Memory.read_cons
      have hw : Memory.wfFrom font d ((d, u) :: rest) = true := by
        simp [Memory.wfFrom, hm.1.1.2, hm.2]
        simpa using hm.1.2
      exact Memory.read_below font _ hw h1
    · by_cases h2 : a = d
      · subst h2
        simp only [if_neg h1, if_true]
        rw [Memory.read_cons font a x rest b (Memory.read_below font _ hm.2 (by omega))]
        by_cases hb : b = a <;> simp [Memory.read, hb]
      · simp only [if_neg h1, if_neg h2, Memory.read]
        by_cases hb : b = d
        · simp [hb, Ne.symm h2]
        · simp only [if_neg hb]
          exact ih hm.2

theorem Memory.read_write (m : Memory) (hm : Memory.wf font m = true) (a : Nat) (x : Byte)
    (b : Nat) :
    Memory.read font (Memory.write font a x m) b = if b = a then x else Memory.read font m b :=
  Memory.read_write_from font m hm a x b

theorem Memory.wfFrom_cons {low a : Nat} (x : Byte) (m : Memory) (hl : low ≤ a)
    (ha : a ≤ Config.memTop) (hm : Memory.wfFrom font (a + 1) m = true) :
    Memory.wfFrom font low (Memory.cons font a x m) = true := by
  unfold Memory.cons
  split
  · exact Memory.wfFrom_weaken font (by omega) m hm
  · next h => simp [Memory.wfFrom, hl, ha, hm, h]

theorem Memory.wfFrom_write {low : Nat} (m : Memory) (hm : Memory.wfFrom font low m = true)
    (a : Nat) (x : Byte) (hl : low ≤ a) (ha : a ≤ Config.memTop) :
    Memory.wfFrom font low (Memory.write font a x m) = true := by
  induction m generalizing low with
  | nil => exact Memory.wfFrom_cons font x [] hl ha rfl
  | cons c rest ih =>
    obtain ⟨d, u⟩ := c
    have hm' := hm
    simp only [Memory.wfFrom, Bool.and_eq_true, decide_eq_true_eq] at hm
    unfold Memory.write
    by_cases h1 : a < d
    · simp only [if_pos h1]
      apply Memory.wfFrom_cons font x _ hl ha
      simp only [Memory.wfFrom, Bool.and_eq_true, decide_eq_true_eq]
      exact ⟨⟨⟨by omega, hm.1.1.2⟩, hm.1.2⟩, hm.2⟩
    · by_cases h2 : a = d
      · subst h2
        simp only [if_neg h1, if_true]
        exact Memory.wfFrom_cons font x rest hl ha hm.2
      · simp only [if_neg h1, if_neg h2]
        have := ih hm.2 (by omega)
        simp only [Memory.wfFrom, Bool.and_eq_true, decide_eq_true_eq]
        exact ⟨hm.1, this⟩

/-- A write inside the memory keeps the canonical form. -/
theorem Memory.wf_write (m : Memory) (hm : Memory.wf font m = true) (a : Nat) (x : Byte)
    (ha : a ≤ Config.memTop) : Memory.wf font (Memory.write font a x m) = true :=
  Memory.wfFrom_write font m hm a x (Nat.zero_le a) ha

theorem Memory.wf_writeAll (xs : List Byte) (a : Nat) (m : Memory) (hm : Memory.wf font m = true)
    (ha : a + xs.length ≤ Config.memTop + 1) :
    Memory.wf font (Memory.writeAll font a xs m) = true := by
  induction xs generalizing a m with
  | nil => exact hm
  | cons x xs ih =>
    simp only [List.length_cons] at ha
    exact ih (a + 1) _ (Memory.wf_write font m hm a x (by omega)) (by omega)

/-- Consecutive bytes written read back in order; every other address reads as before. -/
theorem Memory.read_writeAll (xs : List Byte) (a : Nat) (m : Memory) (hm : Memory.wf font m = true)
    (ha : a + xs.length ≤ Config.memTop + 1) (b : Nat) :
    Memory.read font (Memory.writeAll font a xs m) b =
      if a ≤ b then (xs[b - a]?).getD (Memory.read font m b) else Memory.read font m b := by
  induction xs generalizing a m with
  | nil => simp [Memory.writeAll]
  | cons x xs ih =>
    simp only [List.length_cons] at ha
    have hw := Memory.wf_write font m hm a x (by omega)
    rw [Memory.writeAll, ih (a + 1) _ hw (by omega), Memory.read_write font m hm]
    by_cases h1 : a + 1 ≤ b
    · have e : b - a = (b - (a + 1)) + 1 := by omega
      have : b ≠ a := by omega
      have h2 : a ≤ b := by omega
      simp [h1, h2, this, e]
    · by_cases h2 : b = a
      · subst h2; simp
      · have : ¬ a ≤ b := by omega
        simp [h1, this, h2]

theorem Memory.wfFrom_filter {low : Nat} (p : Host.Cell → Bool) (m : Memory)
    (hm : Memory.wfFrom font low m = true) : Memory.wfFrom font low (m.filter p) = true := by
  induction m generalizing low with
  | nil => rfl
  | cons c rest ih =>
    obtain ⟨d, u⟩ := c
    simp only [Memory.wfFrom, Bool.and_eq_true, decide_eq_true_eq] at hm
    rw [List.filter_cons]
    split
    · simp only [Memory.wfFrom, Bool.and_eq_true, decide_eq_true_eq]
      exact ⟨hm.1, ih hm.2⟩
    · exact Memory.wfFrom_weaken font (by omega) _ (ih hm.2)

/-- Reset keeps the canonical form. -/
theorem Memory.wf_afterReset (m : Memory) (hm : Memory.wf font m = true) :
    Memory.wf font (Memory.afterReset m) = true :=
  Memory.wfFrom_filter font _ m hm

/-- What each address reads as after a reset (R323). -/
theorem Memory.read_afterReset (m : Memory) (a : Nat) :
    Memory.read font (Memory.afterReset m) a =
      if a < Config.fontBase ∨ (Config.fontEnd < a ∧ a < Config.resetZeroStart)
      then Memory.read font m a else Memory.unlisted font a := by
  unfold Memory.afterReset
  induction m with
  | nil => simp [Memory.read]
  | cons c rest ih =>
    obtain ⟨d, u⟩ := c
    rw [List.filter_cons]
    by_cases hd : d < Config.fontBase ∨ (Config.fontEnd < d ∧ d < Config.resetZeroStart)
    · have : (decide (d < Config.fontBase) || (decide (Config.fontEnd < d) && decide (d < Config.resetZeroStart))) = true := by
        simpa using hd
      rw [if_pos this]
      simp only [Memory.read]
      by_cases ha : a = d
      · subst ha; simp [hd]
      · simpa [ha] using ih
    · have : (decide (d < Config.fontBase) || (decide (Config.fontEnd < d) && decide (d < Config.resetZeroStart))) = false := by
        simpa [← not_and_or, imp_iff_not_or] using hd
      rw [if_neg (by simp [this])]
      simp only [Memory.read]
      by_cases ha : a = d
      · subst ha; rw [if_neg hd]; rw [ih, if_neg hd]
      · simpa [ha] using ih

/-- Canonical memories that read alike at every address are equal. -/
theorem Memory.ext_read {low : Nat} (m m' : Memory) (hm : Memory.wfFrom font low m = true)
    (hm' : Memory.wfFrom font low m' = true)
    (h : ∀ a, Memory.read font m a = Memory.read font m' a) : m = m' := by
  induction m generalizing low m' with
  | nil =>
    cases m' with
    | nil => rfl
    | cons c rest =>
      obtain ⟨d, u⟩ := c
      simp only [Memory.wfFrom, Bool.and_eq_true, decide_eq_true_eq] at hm'
      have := h d
      simp only [Memory.read, if_true] at this
      simp [← this] at hm'
  | cons c rest ih =>
    obtain ⟨d, u⟩ := c
    have hm0 := hm
    simp only [Memory.wfFrom, Bool.and_eq_true, decide_eq_true_eq] at hm
    cases m' with
    | nil =>
      have := h d
      simp only [Memory.read, if_true] at this
      simp [this] at hm
    | cons c' rest' =>
      obtain ⟨e, w⟩ := c'
      have hm0' := hm'
      simp only [Memory.wfFrom, Bool.and_eq_true, decide_eq_true_eq] at hm'
      have hde : d = e := by
        rcases Nat.lt_trichotomy d e with hlt | heq | hgt
        · have := h d
          have hb : Memory.read font ((e, w) :: rest') d = Memory.unlisted font d :=
            Memory.read_below font (low := e) _ (by
              simp only [Memory.wfFrom, Bool.and_eq_true, decide_eq_true_eq]
              exact ⟨⟨⟨le_refl e, hm'.1.1.2⟩, hm'.1.2⟩, hm'.2⟩) hlt
          rw [hb] at this
          simp only [Memory.read, if_true] at this
          simp [this] at hm
        · exact heq
        · have := h e
          have hb : Memory.read font ((d, u) :: rest) e = Memory.unlisted font e :=
            Memory.read_below font (low := d) _ (by
              simp only [Memory.wfFrom, Bool.and_eq_true, decide_eq_true_eq]
              exact ⟨⟨⟨le_refl d, hm.1.1.2⟩, hm.1.2⟩, hm.2⟩) hgt
          rw [hb] at this
          simp only [Memory.read, if_true] at this
          simp [← this] at hm'
      subst hde
      have hu : u = w := by
        have := h d
        simpa [Memory.read] using this
      subst hu
      congr 1
      apply ih rest' hm.2 hm'.2
      intro a
      by_cases ha : a = d
      · subst ha
        rw [Memory.read_below font _ hm.2 (by omega), Memory.read_below font _ hm'.2 (by omega)]
      · have := h a
        simpa [Memory.read, ha] using this

/-! ### The state's memory -/

variable (s : State)

theorem State.memRead_eq (a : Nat) :
    s.memRead a = if a > Config.memTop then none else some (s.byteAt a) := rfl

@[simp] theorem State.memRead_in (a : Nat) (h : a ≤ Config.memTop) : s.memRead a = some (s.byteAt a) := by
  simp [State.memRead, Nat.not_lt.mpr h]

@[simp] theorem State.memRead_out (a : Nat) (h : Config.memTop < a) : s.memRead a = none := by
  simp [State.memRead, h]

@[simp] theorem State.memWrite_in (a : Nat) (x : Byte) (h : a ≤ Config.memTop) :
    s.memWrite a x = some { s with mem := Memory.write s.font a x s.mem } := by
  simp [State.memWrite, Nat.not_lt.mpr h]

@[simp] theorem State.memWrite_out (a : Nat) (x : Byte) (h : Config.memTop < a) :
    s.memWrite a x = none := by
  simp [State.memWrite, h]

end Sys2Proof.Machine
end

