-- ==== Sys2Proof/Laws/Ops.lean ====
section
/-! SUPPORT. One lemma per shared operation that says once everything it can do: the loops over
memory, the call stack, the provider and the sprite engine. -/

namespace Sys2Proof.Machine

variable (s : State)

/-! ### Call stack and provider -/

theorem State.push_eq (a : Word) :
    s.push a = if s.stack.length ≥ 16 then none else some { s with stack := a :: s.stack } := rfl

theorem State.pop_nil (h : s.stack = []) : s.pop = none := by simp [State.pop, h]

theorem State.pop_cons {a : Word} {rest : List Word} (h : s.stack = a :: rest) :
    s.pop = some (a, { s with stack := rest }) := by simp [State.pop, h]

/-- A draw changes only the provider's fields, and counts one. -/
theorem State.draw_snd :
    s.draw.2 = { s with draws := s.draws.tail, drawCount := s.drawCount + 1 } := by
  unfold State.draw
  split <;> simp_all

theorem State.draw_fst :
    s.draw.1 = s.draws.headD (Config.randByte s.drawCount) := by
  unfold State.draw
  split <;> simp_all

/-! ### Stores and loads of consecutive bytes -/

/-- All bytes inside the memory: they are written and nothing else changes. -/
theorem State.storeBytes_in (i : Instr) (xs : List Byte) (a : Nat)
    (h : a + xs.length ≤ Config.memTop + 1) :
    State.storeBytes i a xs s = { s with mem := Memory.writeAll s.font a xs s.mem } := by
  induction xs generalizing a s with
  | nil => rfl
  | cons x xs ih =>
    simp only [List.length_cons] at h
    have ha : a ≤ Config.memTop := by omega
    simp only [State.storeBytes, State.memWrite_in s a x ha]
    rw [ih _ (a + 1) (by omega)]
    rfl

/-- Some byte outside: the bytes below 0x1000 are written and the first address above 0xFFF
raises. -/
theorem State.storeBytes_out (i : Instr) (xs : List Byte) (a : Nat) (hne : xs ≠ [])
    (h : Config.memTop + 1 < a + xs.length) :
    State.storeBytes i a xs s =
      ({ s with mem := Memory.writeAll s.font a (xs.take (Config.memTop + 1 - a)) s.mem } : State).raise
        .addressOutOfBounds i (some (max a (Config.memTop + 1))) := by
  induction xs generalizing a s with
  | nil => exact absurd rfl hne
  | cons x xs ih =>
    simp only [List.length_cons] at h
    by_cases ha : a ≤ Config.memTop
    · simp only [State.storeBytes, State.memWrite_in s a x ha]
      have hxs : xs ≠ [] := fun e => by simp [e] at h; omega
      rw [ih _ (a + 1) hxs (by omega)]
      have e : Config.memTop + 1 - a = (Config.memTop + 1 - (a + 1)) + 1 := by omega
      have m1 : max (a + 1) (Config.memTop + 1) = Config.memTop + 1 := by omega
      have m2 : max a (Config.memTop + 1) = Config.memTop + 1 := by omega
      rw [e, List.take_succ_cons, Memory.writeAll, m1, m2]
    · have ha' : Config.memTop < a := by omega
      have e : Config.memTop + 1 - a = 0 := by omega
      have m2 : max a (Config.memTop + 1) = a := by omega
      simp [State.storeBytes, State.memWrite_out s a x ha', e, m2, Memory.writeAll]

/-- The registers a load fills, one after another, from rising addresses. -/
def loadedV (s : State) : Nat → List Nibble → State → State
  | _, [], t => t
  | a, x :: xs, t => loadedV s (a + 1) xs (t.setV x (s.byteAt a))

/-- A load changes only registers: memory, and so every byte it reads, stays as it was. -/
theorem loadedV_frame (r : State) (xs : List Nibble) (a : Nat) (t : State) :
    loadedV r a xs t = { t with v := (loadedV r a xs t).v } := by
  induction xs generalizing a t with
  | nil => rfl
  | cons x xs ih =>
    show loadedV r (a + 1) xs _ = _
    rw [ih]
    rfl

theorem State.loadBytes_in_from (r : State) (i : Instr) (xs : List Nibble) (a : Nat) (t : State)
    (hb : ∀ n, t.byteAt n = r.byteAt n) (h : a + xs.length ≤ Config.memTop + 1) :
    State.loadBytes i a xs t = loadedV r a xs t := by
  induction xs generalizing a t with
  | nil => rfl
  | cons x xs ih =>
    simp only [List.length_cons] at h
    simp only [State.loadBytes, State.memRead_in t a (by omega), loadedV, hb]
    exact ih (a + 1) _ (by simpa using hb) (by omega)

/-- All bytes inside the memory: the registers are loaded and nothing else changes. -/
theorem State.loadBytes_in (i : Instr) (xs : List Nibble) (a : Nat)
    (h : a + xs.length ≤ Config.memTop + 1) :
    State.loadBytes i a xs s = loadedV s a xs s :=
  State.loadBytes_in_from s i xs a s (fun _ => rfl) h

theorem State.loadBytes_out_from (r : State) (i : Instr) (xs : List Nibble) (a : Nat) (t : State)
    (hne : xs ≠ []) (hb : ∀ n, t.byteAt n = r.byteAt n) (h : Config.memTop + 1 < a + xs.length) :
    State.loadBytes i a xs t =
      (loadedV r a (xs.take (Config.memTop + 1 - a)) t).raise .addressOutOfBounds i
        (some (max a (Config.memTop + 1))) := by
  induction xs generalizing a t with
  | nil => exact absurd rfl hne
  | cons x xs ih =>
    simp only [List.length_cons] at h
    by_cases ha : a ≤ Config.memTop
    · simp only [State.loadBytes, State.memRead_in t a ha, hb]
      have hxs : xs ≠ [] := fun e => by simp [e] at h; omega
      rw [ih (a + 1) _ hxs (by simpa using hb) (by omega)]
      have e : Config.memTop + 1 - a = (Config.memTop + 1 - (a + 1)) + 1 := by omega
      have m1 : max (a + 1) (Config.memTop + 1) = Config.memTop + 1 := by omega
      have m2 : max a (Config.memTop + 1) = Config.memTop + 1 := by omega
      rw [e, List.take_succ_cons, loadedV, m1, m2]
    · have ha' : Config.memTop < a := by omega
      have e : Config.memTop + 1 - a = 0 := by omega
      have m2 : max a (Config.memTop + 1) = a := by omega
      simp [State.loadBytes, State.memRead_out t a ha', e, m2, loadedV]

/-- Some byte outside: the registers whose bytes lie below 0x1000 are loaded and the first address
above 0xFFF raises. -/
theorem State.loadBytes_out (i : Instr) (xs : List Nibble) (a : Nat) (hne : xs ≠ [])
    (h : Config.memTop + 1 < a + xs.length) :
    State.loadBytes i a xs s =
      (loadedV s a (xs.take (Config.memTop + 1 - a)) s).raise .addressOutOfBounds i
        (some (max a (Config.memTop + 1))) :=
  State.loadBytes_out_from s i xs a s hne (fun _ => rfl) h

theorem getV_loadedV_range (r : State) (n k a : Nat) (t : State) (h : k + n ≤ 16) (q : Nibble) :
    (loadedV r a ((List.range' k n).map (BitVec.ofNat 4)) t).getV q =
      if k ≤ q.toNat ∧ q.toNat < k + n then r.byteAt (a + (q.toNat - k)) else t.getV q := by
  induction n generalizing k a t with
  | zero => simp [loadedV]
  | succ n ih =>
    rw [List.range'_succ, List.map_cons, loadedV, ih (k + 1) (a + 1) _ (by omega), State.getV_setV]
    by_cases h1 : k + 1 ≤ q.toNat ∧ q.toNat < k + 1 + n
    · have h2 : k ≤ q.toNat ∧ q.toNat < k + (n + 1) := by omega
      have e : a + 1 + (q.toNat - (k + 1)) = a + (q.toNat - k) := by omega
      rw [if_pos h1, if_pos h2, e]
    · rw [if_neg h1]
      have hk : q = BitVec.ofNat 4 k ↔ q.toNat = k := by
        rw [← BitVec.toNat_inj, BitVec.toNat_ofNat, Nat.mod_eq_of_lt (by omega)]
      by_cases h2 : q.toNat = k
      · have h3 : k ≤ q.toNat ∧ q.toNat < k + (n + 1) := by omega
        have e : a + (q.toNat - k) = a := by omega
        rw [if_pos (hk.mpr h2), if_pos h3, e]
      · have h3 : ¬(k ≤ q.toNat ∧ q.toNat < k + (n + 1)) := by omega
        rw [if_neg (fun e => h2 (hk.mp e)), if_neg h3]

/-- After loading the first n registers of the block from base on. -/
theorem getV_loadedV_take (x : Nibble) (n base : Nat) (hn : n ≤ x.toNat + 1) (q : Nibble) :
    (loadedV s base ((regsUpTo x).take n) s).getV q =
      if q.toNat < n then s.byteAt (base + q.toNat) else s.getV q := by
  have hx := x.isLt
  have e : (regsUpTo x).take n = (List.range' 0 n).map (BitVec.ofNat 4) := by
    rw [regsUpTo, ← List.map_take, List.take_range, Nat.min_eq_left hn, List.range_eq_range']
  rw [e, getV_loadedV_range s n 0 base s (by omega) q]
  simp

/-- V0 to Vx are x+1 registers. -/
@[simp] theorem regsUpTo_length (x : Nibble) : (regsUpTo x).length = x.toNat + 1 := by
  simp [regsUpTo]

theorem regsUpTo_ne_nil (x : Nibble) : regsUpTo x ≠ [] := by
  intro h
  have := congrArg List.length h
  simp at this

/-- Register i of the block V0 to Vx is Vi. -/
theorem regsUpTo_getElem? (x : Nibble) (i : Nat) (h : i ≤ x.toNat) :
    (regsUpTo x)[i]? = some (BitVec.ofNat 4 i) := by
  simp [regsUpTo, Nat.lt_succ_of_le h]

@[simp] theorem decimalDigits_length (b : Byte) : (decimalDigits b).length = 3 := rfl

/-! ### The sprite engine -/

/-- A plotted cell: only the grid and VF can change. -/
theorem State.plot_eq (i : Nat) :
    s.plot i = { s with
      disp := Grid.put s.disp i (!s.pixel i)
      v := if s.pixel i then (s.setV vf 1).v else s.v } := by
  unfold State.plot
  by_cases h : s.pixel i = true <;> simp [h, State.setPixel, State.setV]

theorem State.plot_pixel (i j : Nat) (hi : i < 2048) :
    (s.plot i).pixel j = if j = i then !s.pixel i else s.pixel j := by
  unfold State.plot
  by_cases h : s.pixel i = true <;> simp [h, hi]

theorem State.plot_getV (i : Nat) (r : Nibble) :
    (s.plot i).getV r = if r = vf ∧ s.pixel i = true then 1 else s.getV r := by
  unfold State.plot
  by_cases h : s.pixel i = true <;> simp [h]

/-- Drawing the columns of a row changes only the grid and the registers, and of those only VF. -/
theorem State.drawColumns_frame (b : Byte) (xpos cy k c : Nat) :
    s.drawColumns b xpos cy k c =
      { s with disp := (s.drawColumns b xpos cy k c).disp, v := (s.drawColumns b xpos cy k c).v } := by
  induction k generalizing c s with
  | zero => rfl
  | succ k ih =>
    unfold State.drawColumns
    split
    · rfl
    · rw [ih]
      split
      · simp [State.plot_eq]
      · rfl

theorem State.drawColumns_getV (b : Byte) (xpos cy k c : Nat) (r : Nibble) (hr : r ≠ vf) :
    (s.drawColumns b xpos cy k c).getV r = s.getV r := by
  induction k generalizing c s with
  | zero => rfl
  | succ k ih =>
    unfold State.drawColumns
    split
    · rfl
    · rw [ih]
      split
      · simp [State.plot_getV, hr]
      · rfl

/-- Drawing rows changes only the grid, the registers and, at a fault, RUN and FINFO. -/
theorem State.drawRows_frame (i : Instr) (base xpos ypos k r : Nat) :
    State.drawRows i base xpos ypos k r s =
      { s with
        disp := (State.drawRows i base xpos ypos k r s).disp
        v := (State.drawRows i base xpos ypos k r s).v
        run := (State.drawRows i base xpos ypos k r s).run
        finfo := (State.drawRows i base xpos ypos k r s).finfo } := by
  induction k generalizing r s with
  | zero => rfl
  | succ k ih =>
    unfold State.drawRows
    split
    · rfl
    · split
      · rfl
      · rw [ih, State.drawColumns_frame]

theorem State.drawRows_getV (i : Instr) (base xpos ypos k r : Nat) (q : Nibble) (hq : q ≠ vf) :
    (State.drawRows i base xpos ypos k r s).getV q = s.getV q := by
  induction k generalizing r s with
  | zero => rfl
  | succ k ih =>
    unfold State.drawRows
    split
    · rfl
    · split
      · rfl
      · rw [ih, State.drawColumns_getV _ _ _ _ _ _ _ hq]

end Sys2Proof.Machine
end

