-- ==== Sys2Proof/Laws/Cycle.lean ====
section
/-! SUPPORT. The fetch, the cycle and the step: one lemma per case, and one inversion of a step that
answers a next state. -/

namespace Sys2Proof.Machine

variable (s : State)

/-! ### Fetch -/

/-- Both bytes inside the memory: the word, first byte more significant (R121, R63). -/
theorem State.fetch_in (h : s.pc.toNat ≤ 0xFFE) :
    s.fetch = .inl (joinBytes (s.byteAt s.pc.toNat) (s.byteAt (s.pc.toNat + 1))) := by
  have h1 : s.pc.toNat ≤ Config.memTop := by simp only [Config.memTop]; omega
  have h2 : s.pc.toNat + 1 ≤ Config.memTop := by simp only [Config.memTop]; omega
  simp [State.fetch, State.memRead_in s _ h1, State.memRead_in s _ h2]

/-- Some byte outside: the first address above 0xFFF (R121). -/
theorem State.fetch_out (h : 0xFFE < s.pc.toNat) : s.fetch = .inr (max s.pc.toNat 0x1000) := by
  by_cases h1 : s.pc.toNat ≤ Config.memTop
  · have h2 : Config.memTop < s.pc.toNat + 1 := by simp only [Config.memTop] at *; omega
    have e : max s.pc.toNat 0x1000 = s.pc.toNat + 1 := by simp only [Config.memTop] at *; omega
    simp [State.fetch, State.memRead_in s _ h1, State.memRead_out s _ h2, e]
  · have h2 : Config.memTop < s.pc.toNat := by omega
    have e : max s.pc.toNat 0x1000 = s.pc.toNat := by simp only [Config.memTop] at *; omega
    simp [State.fetch, State.memRead_out s _ h2, e]

/-- A fetch that gives a word came from an address of at most 0xFFE. -/
theorem State.fetch_pc {w : Word} (h : s.fetch = .inl w) : s.pc.toNat ≤ 0xFFE := by
  by_contra hc
  rw [State.fetch_out s (by omega)] at h
  cases h

/-! ### Cycle -/

theorem cycle_running (h : s.run = .running) : cycle s = runningCycle s := by simp [cycle, h]

theorem cycle_awaiting {x : Nibble} (h : s.run = .awaitingKey x) : cycle s = .next s := by
  simp [cycle, h]

theorem cycle_faulted {k : ErrorKind} (h : s.run = .faulted k) : cycle s = .next s := by
  simp [cycle, h]

theorem runningCycle_fetchFault {a : Nat} (h : s.fetch = .inr a) :
    runningCycle s = .next (s.enterFault .addressOutOfBounds s.pc none (some a)) := by
  simp [runningCycle, h]

theorem runningCycle_undefined {w : Word} (h : s.fetch = .inl w) (hd : decodeWord w = none) :
    runningCycle s = .next (s.ready.enterFault .undefinedInstruction s.pc (some w) none) := by
  simp [runningCycle, h, hd]

theorem runningCycle_exec {w : Word} {i : Instr} (h : s.fetch = .inl w)
    (hd : decodeWord w = some i) : runningCycle s = exec i s.ready := by
  simp [runningCycle, h, hd]

/-- Everything a cycle can do. -/
theorem cycle_cases {t : State} (h : cycle s = .next t) :
    (s.run ≠ .running ∧ t = s) ∨
    (s.run = .running ∧ ∃ a, s.fetch = .inr a ∧
      t = s.enterFault .addressOutOfBounds s.pc none (some a)) ∨
    (s.run = .running ∧ ∃ w, s.fetch = .inl w ∧ decodeWord w = none ∧
      t = s.ready.enterFault .undefinedInstruction s.pc (some w) none) ∨
    (s.run = .running ∧ ∃ w i, s.fetch = .inl w ∧ decodeWord w = some i ∧
      exec i s.ready = .next t) := by
  cases hr : s.run with
  | awaitingKey x =>
    rw [cycle_awaiting s hr] at h
    injection h with h
    exact .inl ⟨by simp, h.symm⟩
  | faulted k =>
    rw [cycle_faulted s hr] at h
    injection h with h
    exact .inl ⟨by simp, h.symm⟩
  | running =>
    rw [cycle_running s hr] at h
    refine .inr ?_
    cases hf : s.fetch with
    | inr a =>
      rw [runningCycle_fetchFault s hf] at h
      injection h with h
      exact .inl ⟨rfl, a, rfl, h.symm⟩
    | inl w =>
      cases hd : decodeWord w with
      | none =>
        rw [runningCycle_undefined s hf hd] at h
        injection h with h
        exact .inr (.inl ⟨rfl, w, rfl, hd, h.symm⟩)
      | some i =>
        rw [runningCycle_exec s hf hd] at h
        exact .inr (.inr ⟨rfl, w, i, rfl, hd, h⟩)

/-! ### Step -/

theorem step_nil (h : s.script = []) : step s = cycle s := by simp [step, hostStep, h]

theorem step_cons {op : HostOp} {rest : List HostOp} (h : s.script = op :: rest) :
    step s = perform op { s with script := rest } := by
  simp [step, hostStep, h, State.popScript]

/-- load_rom answers a next state exactly when it is allowed and the image fits. -/
theorem loadRom_next (bytes : List Byte) (ho : s.loadOpen = true)
    (hf : bytes.length ≤ Config.romMax) :
    loadRom bytes s = .next { s with mem := Memory.writeAll s.font Config.progBase bytes s.mem } := by
  simp [loadRom, ho, romFits, hf]

theorem loadRom_inv {bytes : List Byte} {t : State} (h : loadRom bytes s = .next t) :
    s.loadOpen = true ∧ bytes.length ≤ Config.romMax ∧
      t = { s with mem := Memory.writeAll s.font Config.progBase bytes s.mem } := by
  unfold loadRom at h
  split at h
  · cases h
  · split at h
    · cases h
    · next h1 h2 =>
      injection h with h
      exact ⟨by simpa using h1, by simpa [romFits] using h2, h.symm⟩

end Sys2Proof.Machine
end

