-- ==== Sys2Proof/Laws/Draw.lean ====
section
/-! SUPPORT. What the sprite engine leaves: the cells a row and a whole sprite cover, the pixels and VF
after drawing them, and where a draw faults. -/

namespace Sys2Proof.Machine

variable (s : State)

/-- Cell j lies under a bit 1 of the columns c to 7 of a sprite row b at column xpos of row cy. -/
def rowCovers (b : Byte) (xpos cy c j : Nat) : Bool :=
  decide (j / 64 = cy) && decide (xpos + c ≤ j % 64) && decide (j % 64 < xpos + 8) &&
    b.getLsbD (7 - (j % 64 - xpos))

/-- Cell j lies under a bit 1 of the rows r to r + k - 1 of the sprite at address base. -/
def rowsCover (base xpos ypos r k j : Nat) : Bool :=
  decide (ypos + r ≤ j / 64) && decide (j / 64 < ypos + r + k) &&
    rowCovers (s.byteAt (base + (j / 64 - ypos))) xpos (j / 64) 0 j

/-- The cells from column c on are the cell of column c and the cells from column c + 1 on. -/
theorem rowCovers_step (b : Byte) (xpos cy c j : Nat) (hx : c + xpos ≤ 63) (hc : c < 8) :
    rowCovers b xpos cy c j =
      ((decide (j = cellIndex (c + xpos) cy) && b.getLsbD (7 - c)) ^^ rowCovers b xpos cy (c + 1) j) := by
  have hj : j = cellIndex (c + xpos) cy ↔ j / 64 = cy ∧ j % 64 = c + xpos := by
    simp only [cellIndex, Config.dispW]
    omega
  by_cases h1 : j / 64 = cy
  · by_cases h2 : j % 64 = c + xpos
    · have e : j % 64 - xpos = c := by omega
      have hn : ¬ xpos + (c + 1) ≤ j % 64 := by omega
      have hy : xpos + c ≤ j % 64 := by omega
      have hz : j % 64 < xpos + 8 := by omega
      have hl : rowCovers b xpos cy c j = b.getLsbD (7 - c) := by
        rw [rowCovers, e, decide_eq_true h1, decide_eq_true hy, decide_eq_true hz]
        rfl
      have hr : rowCovers b xpos cy (c + 1) j = false := by
        rw [rowCovers, decide_eq_false hn, Bool.and_false, Bool.false_and, Bool.false_and]
      rw [hl, hr, decide_eq_true (hj.mpr ⟨h1, h2⟩), Bool.true_and, Bool.xor_false]
    · have hq : xpos + c ≤ j % 64 ↔ xpos + (c + 1) ≤ j % 64 := by omega
      simp [rowCovers, hj, h1, h2, hq]
  · simp [rowCovers, hj, h1]

/-- Off the right edge nothing is covered. -/
theorem rowCovers_clipped (b : Byte) (xpos cy c j : Nat) (h : 63 < c + xpos) :
    rowCovers b xpos cy c j = false := by
  have hn : ¬ xpos + c ≤ j % 64 := by omega
  simp [rowCovers, hn]

/-- After the columns c to 7 of a row: each pixel is the exclusive or with the covered cells, and VF is
1 if a lit pixel was covered, else as before. -/
theorem State.drawColumns_spec (b : Byte) (xpos cy : Nat) (hy : cy ≤ 31) (k c : Nat) (hk : c + k = 8) :
    (∀ j, (s.drawColumns b xpos cy k c).pixel j = (s.pixel j ^^ rowCovers b xpos cy c j)) ∧
    ((∃ j, s.pixel j = true ∧ rowCovers b xpos cy c j = true) →
      (s.drawColumns b xpos cy k c).getV vf = 1) ∧
    ((∀ j, s.pixel j = true → rowCovers b xpos cy c j = false) →
      (s.drawColumns b xpos cy k c).getV vf = s.getV vf) := by
  induction k generalizing c s with
  | zero =>
    have h0 : ∀ j, rowCovers b xpos cy c j = false := by
      intro j
      have : ¬ (xpos + c ≤ j % 64 ∧ j % 64 < xpos + 8) := by omega
      simp only [rowCovers]
      by_cases h1 : xpos + c ≤ j % 64
      · have h2 : ¬ j % 64 < xpos + 8 := by omega
        simp [h2]
      · simp [h1]
    simp [State.drawColumns, h0]
  | succ k ih =>
    unfold State.drawColumns
    by_cases hx : c + xpos > 63
    · simp [hx, rowCovers_clipped b xpos cy c _ hx]
    · rw [if_neg hx]
      have hcell : cellIndex (c + xpos) cy < 2048 := by
        simp only [cellIndex, Config.dispW]
        omega
      have hs := fun j => rowCovers_step b xpos cy c j (by omega) (by omega)
      have hnext : rowCovers b xpos cy (c + 1) (cellIndex (c + xpos) cy) = false := by
        have : cellIndex (c + xpos) cy % 64 = c + xpos := by
          simp only [cellIndex, Config.dispW]
          omega
        have hn : ¬ xpos + (c + 1) ≤ cellIndex (c + xpos) cy % 64 := by omega
        simp [rowCovers, hn]
      cases hb : b.getLsbD (7 - c)
      · obtain ⟨h1, h2, h3⟩ := ih s (c + 1) (by omega)
        simp only [hb, Bool.and_false, Bool.false_bne] at hs
        simp only [hs]
        exact ⟨h1, h2, h3⟩
      · obtain ⟨h1, h2, h3⟩ := ih (s.plot (cellIndex (c + xpos) cy)) (c + 1) (by omega)
        have hp := fun j => State.plot_pixel s (cellIndex (c + xpos) cy) j hcell
        simp only [if_true]
        simp only [hb, Bool.and_true] at hs
        refine ⟨fun j => ?_, ?_, ?_⟩
        · rw [h1, hp, hs]
          by_cases hj : j = cellIndex (c + xpos) cy
          · subst hj; simp [hnext]
          · simp [hj]
        · rintro ⟨j, hj, hc⟩
          by_cases he : j = cellIndex (c + xpos) cy
          · by_cases hex : ∃ q, (s.plot (cellIndex (c + xpos) cy)).pixel q = true ∧ rowCovers b xpos cy (c + 1) q = true
            · exact h2 hex
            · rw [h3 (fun q hq => by
                cases hr : rowCovers b xpos cy (c + 1) q
                · rfl
                · exact absurd ⟨q, hq, hr⟩ hex)]
              rw [State.plot_getV, if_pos ⟨rfl, he ▸ hj⟩]
          · refine h2 ⟨j, ?_, ?_⟩
            · rw [hp, if_neg he]; exact hj
            · rw [hs] at hc; simpa [he] using hc
        · intro hn
          have hcl : s.pixel (cellIndex (c + xpos) cy) = false := by
            cases hc : s.pixel (cellIndex (c + xpos) cy)
            · rfl
            · have := hn _ hc
              rw [hs, hnext] at this
              simp at this
          rw [h3, State.plot_getV, if_neg (by simp [hcl])]
          intro j hj
          by_cases he : j = cellIndex (c + xpos) cy
          · rw [he]; exact hnext
          · rw [hp, if_neg he] at hj
            have := hn j hj
            rw [hs] at this
            simpa [he] using this

/-- Drawing a row reads no memory: every byte is as before. -/
theorem State.drawColumns_byteAt (b : Byte) (xpos cy k c n : Nat) :
    (s.drawColumns b xpos cy k c).byteAt n = s.byteAt n := by
  rw [State.drawColumns_frame]
  rfl

/-- The rows from r on are row r and the rows from r + 1 on. -/
theorem rowsCover_step (base xpos ypos r k j : Nat) :
    rowsCover s base xpos ypos r (k + 1) j =
      (rowCovers (s.byteAt (base + r)) xpos (r + ypos) 0 j ^^
        rowsCover s base xpos ypos (r + 1) k j) := by
  by_cases h : j / 64 = r + ypos
  · have e : j / 64 - ypos = r := by omega
    have h1 : ypos + r ≤ j / 64 := by omega
    have h2 : j / 64 < ypos + r + (k + 1) := by omega
    have h3 : ¬ ypos + (r + 1) ≤ j / 64 := by omega
    have hr : rowsCover s base xpos ypos (r + 1) k j = false := by
      rw [rowsCover, decide_eq_false h3, Bool.false_and, Bool.false_and]
    rw [hr, Bool.xor_false, rowsCover, decide_eq_true h1, decide_eq_true h2, e, h]
    rfl
  · have hr : rowCovers (s.byteAt (base + r)) xpos (r + ypos) 0 j = false := by
      rw [rowCovers, decide_eq_false h, Bool.false_and, Bool.false_and, Bool.false_and]
    have h1 : (ypos + r ≤ j / 64) = (ypos + (r + 1) ≤ j / 64) := by
      apply propext
      omega
    rw [hr, Bool.false_xor, rowsCover, rowsCover, show ypos + r + (k + 1) = ypos + (r + 1) + k by omega]
    simp only [h1]

/-- Rows below the bottom edge cover nothing on the display. -/
theorem rowsCover_clipped (base xpos ypos r k j : Nat) (hj : j < 2048) (h : 31 < r + ypos) :
    rowsCover s base xpos ypos r k j = false := by
  have h1 : ¬ ypos + r ≤ j / 64 := by omega
  rw [rowsCover, decide_eq_false h1, Bool.false_and, Bool.false_and]

theorem rowsCover_congr (t : State) (h : ∀ a, t.byteAt a = s.byteAt a) (base xpos ypos r k j : Nat) :
    rowsCover t base xpos ypos r k j = rowsCover s base xpos ypos r k j := by
  simp only [rowsCover, h]

/-- After the rows r to r + k - 1, all of those that are on the display inside the memory: each pixel
is the exclusive or with the covered cells, VF is 1 if a lit pixel was covered, else as before. -/
theorem State.drawRows_spec (i : Instr) (base xpos ypos k r : Nat)
    (hm : ∀ q, r ≤ q → q < r + k → q + ypos ≤ 31 → base + q ≤ Config.memTop) :
    (∀ j, j < 2048 → (State.drawRows i base xpos ypos k r s).pixel j =
      (s.pixel j ^^ rowsCover s base xpos ypos r k j)) ∧
    ((∃ j, j < 2048 ∧ s.pixel j = true ∧ rowsCover s base xpos ypos r k j = true) →
      (State.drawRows i base xpos ypos k r s).getV vf = 1) ∧
    ((∀ j, j < 2048 → s.pixel j = true → rowsCover s base xpos ypos r k j = false) →
      (State.drawRows i base xpos ypos k r s).getV vf = s.getV vf) ∧
    (State.drawRows i base xpos ypos k r s).run = s.run ∧
    (State.drawRows i base xpos ypos k r s).finfo = s.finfo := by
  induction k generalizing r s with
  | zero =>
    have h0 : ∀ j, rowsCover s base xpos ypos r 0 j = false := by
      intro j
      by_cases h1 : ypos + r ≤ j / 64
      · have h2 : ¬ j / 64 < ypos + r + 0 := by omega
        rw [rowsCover, decide_eq_false h2, Bool.and_false, Bool.false_and]
      · rw [rowsCover, decide_eq_false h1, Bool.false_and, Bool.false_and]
    simp [State.drawRows, h0]
  | succ k ih =>
    unfold State.drawRows
    by_cases hy : r + ypos > 31
    · rw [if_pos hy]
      have h0 := fun j hj => rowsCover_clipped s base xpos ypos r (k + 1) j hj hy
      refine ⟨fun j hj => by rw [h0 j hj, Bool.xor_false], ?_, fun _ => rfl, rfl, rfl⟩
      rintro ⟨j, hj, _, hc⟩
      rw [h0 j hj] at hc
      cases hc
    · rw [if_neg hy, State.memRead_in s _ (hm r (Nat.le_refl r) (by omega) (by omega))]
      simp only
      obtain ⟨c1, c2, c3⟩ :=
        State.drawColumns_spec s (s.byteAt (base + r)) xpos (r + ypos) (by omega) 8 0 rfl
      obtain ⟨h1, h2, h3, h4, h5⟩ := ih (s.drawColumns (s.byteAt (base + r)) xpos (r + ypos) 8 0)
        (r + 1) (fun q a b => hm q (by omega) (by omega))
      simp only [rowsCover_congr s _ (State.drawColumns_byteAt s _ _ _ _ _), c1] at h1 h2 h3
      have hstep := fun j => rowsCover_step s base xpos ypos r k j
      -- the row and the rows after it cover different cells
      have hdisj : ∀ j, rowCovers (s.byteAt (base + r)) xpos (r + ypos) 0 j = true →
          rowsCover s base xpos ypos (r + 1) k j = false := by
        intro j hj
        simp only [rowCovers, Bool.and_eq_true, decide_eq_true_eq] at hj
        have h3 : ¬ ypos + (r + 1) ≤ j / 64 := by omega
        rw [rowsCover, decide_eq_false h3, Bool.false_and, Bool.false_and]
      refine ⟨fun j hj => ?_, ?_, ?_, ?_, ?_⟩
      · rw [h1 j hj, hstep, Bool.xor_assoc]
      · rintro ⟨j, hj, hp, hc⟩
        by_cases hex : ∃ q, q < 2048 ∧
            (s.pixel q ^^ rowCovers (s.byteAt (base + r)) xpos (r + ypos) 0 q) = true ∧
            rowsCover s base xpos ypos (r + 1) k q = true
        · exact h2 hex
        · rw [h3 (fun q hq hpq => by
            cases hr : rowsCover s base xpos ypos (r + 1) k q
            · rfl
            · exact absurd ⟨q, hq, hpq, hr⟩ hex)]
          refine c2 ⟨j, hp, ?_⟩
          cases hr : rowCovers (s.byteAt (base + r)) xpos (r + ypos) 0 j
          · refine absurd ⟨j, hj, ?_, ?_⟩ hex
            · rw [hr, hp]
              rfl
            · rw [hstep, hr] at hc
              simpa using hc
          · rfl
      · intro hn
        have hrow : ∀ j, j < 2048 → s.pixel j = true →
            rowCovers (s.byteAt (base + r)) xpos (r + ypos) 0 j = false := by
          intro j hj hp
          cases hr : rowCovers (s.byteAt (base + r)) xpos (r + ypos) 0 j
          · rfl
          · have := hn j hj hp
            rw [hstep, hr, hdisj j hr] at this
            cases this
        rw [h3]
        · apply c3
          intro j hp
          by_cases hj : j < 2048
          · exact hrow j hj hp
          · have h9 : ¬ j / 64 = r + ypos := by omega
            rw [rowCovers, decide_eq_false h9, Bool.false_and, Bool.false_and, Bool.false_and]
        · intro j hj hp
          cases hr : rowCovers (s.byteAt (base + r)) xpos (r + ypos) 0 j
          · have := hn j hj (by simpa [hr] using hp)
            rw [hstep, hr] at this
            simpa using this
          · exact hdisj j hr
      · rw [h4, State.drawColumns_frame]
      · rw [h5, State.drawColumns_frame]

/-- A draw whose row r + m, on the display, is the first outside the memory: the m rows before it are
drawn and the row's address raises. -/
theorem State.drawRows_fault (i : Instr) (base xpos ypos m k r : Nat) (hk : m < k)
    (hy : r + m + ypos ≤ 31) (hin : ∀ q, r ≤ q → q < r + m → base + q ≤ Config.memTop)
    (hout : Config.memTop < base + (r + m)) :
    State.drawRows i base xpos ypos k r s =
      (State.drawRows i base xpos ypos m r s).raise .addressOutOfBounds i (some (base + (r + m))) := by
  induction m generalizing r k s with
  | zero =>
    cases k with
    | zero => omega
    | succ k =>
      have h1 : ¬ r + ypos > 31 := by omega
      rw [Nat.add_zero] at hout
      simp only [State.drawRows, if_neg h1, State.memRead_out s _ hout, Nat.add_zero]
  | succ m ih =>
    cases k with
    | zero => omega
    | succ k =>
      have h1 : ¬ r + ypos > 31 := by omega
      have h2 := hin r (Nat.le_refl r) (by omega)
      simp only [State.drawRows, if_neg h1, State.memRead_in s _ h2]
      rw [ih _ k (r + 1) (by omega) (by omega) (fun q a b => hin q (by omega) (by omega))
        (by rw [show r + 1 + m = r + (m + 1) by omega]; exact hout),
        show r + 1 + m = r + (m + 1) by omega]

end Sys2Proof.Machine
end

