-- ==== Sys2Proof/Laws/Exec.lean ====
section
/-! SUPPORT. The branches of the meanings that have more than one, what the shared operations of the
ALU leave in each register, and what a store, a load and a draw can do to RUN and FINFO. -/

namespace Sys2Proof.Machine

variable (s : State)

/-! ### Branches -/

theorem execRet_nil (h : s.stack = []) : execRet s = .next (s.raise .stackUnderflow .ret none) := by
  simp [execRet, State.pop_nil s h]

theorem execRet_cons {a : Word} {rest : List Word} (h : s.stack = a :: rest) :
    execRet s = .next (({ s with stack := rest } : State).setPc a) := by
  simp [execRet, State.pop_cons s h]

theorem execCall_full (nnn : Addr) (h : 16 ≤ s.stack.length) :
    execCall nnn s = .next (s.raise .stackOverflow (.call nnn) none) := by
  simp [execCall, State.push_eq, h]

theorem execCall_free (nnn : Addr) (h : s.stack.length < 16) :
    execCall nnn s = .next (({ s with stack := s.pc :: s.stack } : State).setPc (absAddr nnn)) := by
  simp [execCall, State.push_eq, Nat.not_le.mpr h]

/-- A register value of at most 15 names the key of that number (R223). -/
theorem keyIndex_key {b : Byte} {k : Nibble} (h : b.toNat = k.toNat) : keyIndex b = some k := by
  have hk := k.isLt
  have hb : ¬ b.toNat > 15 := by omega
  rw [keyIndex, if_neg hb]
  congr 1
  apply BitVec.eq_of_toNat_eq
  rw [BitVec.toNat_setWidth, h, Nat.mod_eq_of_lt hk]

theorem keyIndex_out {b : Byte} (h : 15 < b.toNat) : keyIndex b = none := by
  simp [keyIndex, h]

theorem execSkp_key {x k : Nibble} (h : (s.getV x).toNat = k.toNat) :
    execSkp x s = .next (s.skipIf (s.keyAt k)) := by
  simp [execSkp, keyIndex_key h]

theorem execSkp_out {x : Nibble} (h : 15 < (s.getV x).toNat) :
    execSkp x s = .next (s.raise .keyIndexOutOfRange (.skp x) (some (s.getV x).toNat)) := by
  simp [execSkp, keyIndex_out h]

theorem execSknp_key {x k : Nibble} (h : (s.getV x).toNat = k.toNat) :
    execSknp x s = .next (s.skipIf (!s.keyAt k)) := by
  simp [execSknp, keyIndex_key h]

theorem execSknp_out {x : Nibble} (h : 15 < (s.getV x).toNat) :
    execSknp x s = .next (s.raise .keyIndexOutOfRange (.sknp x) (some (s.getV x).toNat)) := by
  simp [execSknp, keyIndex_out h]

/-! ### Registers and timers -/

/-- The flag is written last, so it stays in VF whatever x is (R36). -/
theorem State.resultThenFlag_getV (x : Nibble) (a b : Byte) (r : Nibble) :
    (s.resultThenFlag x a b).getV r = if r = vf then b else if r = x then a else s.getV r := by
  simp only [State.resultThenFlag, State.getV_setV]

theorem State.resultThenFlag_eq (x : Nibble) (a b : Byte) :
    s.resultThenFlag x a b = { s with v := (s.resultThenFlag x a b).v } := rfl

/-- The flag is written first and Vx is shifted as it then stands (R180). -/
theorem State.flagThenShift_getV (x : Nibble) (b : Byte) (left : Bool) (r : Nibble) :
    (s.flagThenShift x b left).getV r =
      if r = x then
        (if left then (if x = vf then b else s.getV x) <<< 1
          else (if x = vf then b else s.getV x) >>> 1)
      else if r = vf then b else s.getV r := by
  simp only [State.flagThenShift, State.getV_setV]

theorem State.flagThenShift_eq (x : Nibble) (b : Byte) (left : Bool) :
    s.flagThenShift x b left = { s with v := (s.flagThenShift x b left).v } := rfl

/-- A tick takes 1, floored at 0 (R123). -/
theorem tickTimer_toNat (b : Byte) : (tickTimer b).toNat = b.toNat - 1 := by
  unfold tickTimer
  split
  · next h => subst h; rfl
  · next h =>
    have h0 : b.toNat ≠ 0 := fun e => h (BitVec.eq_of_toNat_eq (by simpa using e))
    have hb := b.isLt
    simp
    omega

/-! ### RUN and FINFO after a store, a load and a draw -/

/-- `t` raised AddressOutOfBounds for instruction i on the way from `s`, or left RUN and FINFO. -/
def RaisedOrNot (i : Instr) (s t : State) : Prop :=
  (t.run = s.run ∧ t.finfo = s.finfo) ∨
  (t.run = .faulted .addressOutOfBounds ∧
    ∃ b, Config.memTop < b ∧ t.finfo = some ⟨s.pc - 2, some (encode i), some b⟩)

/-- A store of consecutive bytes changes memory and, at a fault, RUN and FINFO. -/
theorem State.storeBytes_cases (i : Instr) (a : Nat) (xs : List Byte) :
    ∃ m r f, State.storeBytes i a xs s = { s with mem := m, run := r, finfo := f } ∧
      RaisedOrNot i s (State.storeBytes i a xs s) := by
  by_cases h : a + xs.length ≤ Config.memTop + 1
  · rw [State.storeBytes_in s i xs a h]
    exact ⟨_, _, _, rfl, .inl ⟨rfl, rfl⟩⟩
  · by_cases hx : xs = []
    · subst hx
      exact ⟨s.mem, s.run, s.finfo, rfl, .inl ⟨rfl, rfl⟩⟩
    · rw [State.storeBytes_out s i xs a hx (by omega)]
      exact ⟨_, _, _, rfl, .inr ⟨rfl, _, by omega, rfl⟩⟩

/-- A store of consecutive bytes keeps memory canonical. -/
theorem State.storeBytes_wf (i : Instr) (a : Nat) (xs : List Byte)
    (h : Memory.wf s.font s.mem = true) :
    Memory.wf s.font (State.storeBytes i a xs s).mem = true := by
  by_cases hl : a + xs.length ≤ Config.memTop + 1
  · rw [State.storeBytes_in s i xs a hl]
    exact Memory.wf_writeAll _ xs a _ h hl
  · by_cases hx : xs = []
    · subst hx
      exact h
    · rw [State.storeBytes_out s i xs a hx (by omega)]
      by_cases h2 : a ≤ Config.memTop + 1
      · exact Memory.wf_writeAll _ _ a _ h (by simp; omega)
      · rw [show Config.memTop + 1 - a = 0 by omega]
        exact h

/-- A load of consecutive registers changes registers and, at a fault, RUN and FINFO. -/
theorem State.loadBytes_cases (i : Instr) (a : Nat) (xs : List Nibble) :
    ∃ v r f, State.loadBytes i a xs s = { s with v := v, run := r, finfo := f } ∧
      RaisedOrNot i s (State.loadBytes i a xs s) := by
  by_cases h : a + xs.length ≤ Config.memTop + 1
  · rw [State.loadBytes_in s i xs a h, loadedV_frame]
    exact ⟨_, _, _, rfl, .inl ⟨rfl, rfl⟩⟩
  · by_cases hx : xs = []
    · subst hx
      exact ⟨s.v, s.run, s.finfo, rfl, .inl ⟨rfl, rfl⟩⟩
    · rw [State.loadBytes_out s i xs a hx (by omega), loadedV_frame]
      exact ⟨_, _, _, rfl, .inr ⟨rfl, _, by omega, rfl⟩⟩

/-- A draw leaves RUN and FINFO, or raises AddressOutOfBounds. -/
theorem State.drawRows_cases (i : Instr) (base xpos ypos k r : Nat) :
    RaisedOrNot i s (State.drawRows i base xpos ypos k r s) := by
  induction k generalizing r s with
  | zero => exact .inl ⟨rfl, rfl⟩
  | succ k ih =>
    unfold State.drawRows
    split
    · exact .inl ⟨rfl, rfl⟩
    · by_cases h2 : base + r ≤ Config.memTop
      · rw [State.memRead_in s _ h2]
        simp only
        have h := ih (s.drawColumns (s.byteAt (base + r)) xpos (r + ypos) 8 0) (r + 1)
        rw [State.drawColumns_frame] at h ⊢
        exact h
      · rw [State.memRead_out s _ (by omega)]
        exact .inr ⟨rfl, _, by omega, rfl⟩

end Sys2Proof.Machine
end

