-- ==== Sys2Proof/Laws/PerInstr.lean ====
section
/-! SUPPORT. Statements made per instruction. Family RowMatches: the encoder's word of an instruction
is a word of that instruction's row of the opcode map, `w & mask = match` (30_encoding.md R94), and
the row is one of the 34. -/

namespace Sys2Proof.Laws.RowMatches

def Statement (i : Instr) : Prop := (tableRow i).matches (encode i) = true ∧ tableRow i ∈ opcodeRows

/-- Rows with mask 0xF000. -/
theorem of_group {i : Instr} {g : Nibble} (hm : (tableRow i).mask = 0xF000#16)
    (hg : opcodeGroup (encode i) = g) (hp : (tableRow i).pattern = wordNNN g 0) :
    (tableRow i).matches (encode i) = true := by
  rw [Row.matches, hm, mask_group, hg, hp, beq_self_eq_true]

/-- Rows with mask 0xF00F. -/
theorem of_group_n {i : Instr} {g n : Nibble} (hm : (tableRow i).mask = 0xF00F#16)
    (hg : opcodeGroup (encode i) = g) (hn : fieldN (encode i) = n)
    (hp : (tableRow i).pattern = wordXYN g 0 0 n) : (tableRow i).matches (encode i) = true := by
  rw [Row.matches, hm, mask_group_n, hg, hn, hp, beq_self_eq_true]

/-- Rows with mask 0xF0FF. -/
theorem of_group_kk {i : Instr} {g : Nibble} {k : Byte} (hm : (tableRow i).mask = 0xF0FF#16)
    (hg : opcodeGroup (encode i) = g) (hk : fieldKK (encode i) = k)
    (hp : (tableRow i).pattern = wordXKK g 0 k) : (tableRow i).matches (encode i) = true := by
  rw [Row.matches, hm, mask_group_kk, hg, hk, hp, beq_self_eq_true]

/-- The row of an instruction is the row of its form with zero operands, one of the 34. -/
theorem row_mem (i : Instr) : tableRow i ∈ opcodeRows := by cases i <;> simp [opcodeRows, tableRow]

theorem cls : Statement .cls := ⟨by decide, row_mem _⟩

theorem ret : Statement .ret := ⟨by decide, row_mem _⟩

theorem jp (nnn : Addr) : Statement (.jp nnn) :=
  ⟨of_group rfl (opcodeGroup_wordNNN ..) rfl, row_mem _⟩

theorem call (nnn : Addr) : Statement (.call nnn) :=
  ⟨of_group rfl (opcodeGroup_wordNNN ..) rfl, row_mem _⟩

theorem seImm (x : Nibble) (kk : Byte) : Statement (.seImm x kk) :=
  ⟨of_group rfl (opcodeGroup_wordXKK ..) rfl, row_mem _⟩

theorem sneImm (x : Nibble) (kk : Byte) : Statement (.sneImm x kk) :=
  ⟨of_group rfl (opcodeGroup_wordXKK ..) rfl, row_mem _⟩

theorem seReg (x y n : Nibble) : Statement (.seReg x y n) :=
  ⟨of_group rfl (opcodeGroup_wordXYN ..) rfl, row_mem _⟩

theorem ldImm (x : Nibble) (kk : Byte) : Statement (.ldImm x kk) :=
  ⟨of_group rfl (opcodeGroup_wordXKK ..) rfl, row_mem _⟩

theorem addImm (x : Nibble) (kk : Byte) : Statement (.addImm x kk) :=
  ⟨of_group rfl (opcodeGroup_wordXKK ..) rfl, row_mem _⟩

theorem ldReg (x y : Nibble) : Statement (.ldReg x y) :=
  ⟨of_group_n rfl (opcodeGroup_wordXYN ..) (fieldN_wordXYN ..) rfl, row_mem _⟩

theorem orReg (x y : Nibble) : Statement (.orReg x y) :=
  ⟨of_group_n rfl (opcodeGroup_wordXYN ..) (fieldN_wordXYN ..) rfl, row_mem _⟩

theorem andReg (x y : Nibble) : Statement (.andReg x y) :=
  ⟨of_group_n rfl (opcodeGroup_wordXYN ..) (fieldN_wordXYN ..) rfl, row_mem _⟩

theorem xorReg (x y : Nibble) : Statement (.xorReg x y) :=
  ⟨of_group_n rfl (opcodeGroup_wordXYN ..) (fieldN_wordXYN ..) rfl, row_mem _⟩

theorem addReg (x y : Nibble) : Statement (.addReg x y) :=
  ⟨of_group_n rfl (opcodeGroup_wordXYN ..) (fieldN_wordXYN ..) rfl, row_mem _⟩

theorem sub (x y : Nibble) : Statement (.sub x y) :=
  ⟨of_group_n rfl (opcodeGroup_wordXYN ..) (fieldN_wordXYN ..) rfl, row_mem _⟩

theorem shr (x y : Nibble) : Statement (.shr x y) :=
  ⟨of_group_n rfl (opcodeGroup_wordXYN ..) (fieldN_wordXYN ..) rfl, row_mem _⟩

theorem subn (x y : Nibble) : Statement (.subn x y) :=
  ⟨of_group_n rfl (opcodeGroup_wordXYN ..) (fieldN_wordXYN ..) rfl, row_mem _⟩

theorem shl (x y : Nibble) : Statement (.shl x y) :=
  ⟨of_group_n rfl (opcodeGroup_wordXYN ..) (fieldN_wordXYN ..) rfl, row_mem _⟩

theorem sneReg (x y n : Nibble) : Statement (.sneReg x y n) :=
  ⟨of_group rfl (opcodeGroup_wordXYN ..) rfl, row_mem _⟩

theorem ldI (nnn : Addr) : Statement (.ldI nnn) :=
  ⟨of_group rfl (opcodeGroup_wordNNN ..) rfl, row_mem _⟩

theorem jpV0 (nnn : Addr) : Statement (.jpV0 nnn) :=
  ⟨of_group rfl (opcodeGroup_wordNNN ..) rfl, row_mem _⟩

theorem rnd (x : Nibble) (kk : Byte) : Statement (.rnd x kk) :=
  ⟨of_group rfl (opcodeGroup_wordXKK ..) rfl, row_mem _⟩

theorem drw (x y n : Nibble) : Statement (.drw x y n) :=
  ⟨of_group rfl (opcodeGroup_wordXYN ..) rfl, row_mem _⟩

theorem skp (x : Nibble) : Statement (.skp x) :=
  ⟨of_group_kk rfl (opcodeGroup_wordXKK ..) (fieldKK_wordXKK ..) rfl, row_mem _⟩

theorem sknp (x : Nibble) : Statement (.sknp x) :=
  ⟨of_group_kk rfl (opcodeGroup_wordXKK ..) (fieldKK_wordXKK ..) rfl, row_mem _⟩

theorem ldVxDT (x : Nibble) : Statement (.ldVxDT x) :=
  ⟨of_group_kk rfl (opcodeGroup_wordXKK ..) (fieldKK_wordXKK ..) rfl, row_mem _⟩

theorem ldVxK (x : Nibble) : Statement (.ldVxK x) :=
  ⟨of_group_kk rfl (opcodeGroup_wordXKK ..) (fieldKK_wordXKK ..) rfl, row_mem _⟩

theorem ldDT (x : Nibble) : Statement (.ldDT x) :=
  ⟨of_group_kk rfl (opcodeGroup_wordXKK ..) (fieldKK_wordXKK ..) rfl, row_mem _⟩

theorem ldST (x : Nibble) : Statement (.ldST x) :=
  ⟨of_group_kk rfl (opcodeGroup_wordXKK ..) (fieldKK_wordXKK ..) rfl, row_mem _⟩

theorem addI (x : Nibble) : Statement (.addI x) :=
  ⟨of_group_kk rfl (opcodeGroup_wordXKK ..) (fieldKK_wordXKK ..) rfl, row_mem _⟩

theorem ldF (x : Nibble) : Statement (.ldF x) :=
  ⟨of_group_kk rfl (opcodeGroup_wordXKK ..) (fieldKK_wordXKK ..) rfl, row_mem _⟩

theorem ldB (x : Nibble) : Statement (.ldB x) :=
  ⟨of_group_kk rfl (opcodeGroup_wordXKK ..) (fieldKK_wordXKK ..) rfl, row_mem _⟩

theorem stRegs (x : Nibble) : Statement (.stRegs x) :=
  ⟨of_group_kk rfl (opcodeGroup_wordXKK ..) (fieldKK_wordXKK ..) rfl, row_mem _⟩

theorem ldRegs (x : Nibble) : Statement (.ldRegs x) :=
  ⟨of_group_kk rfl (opcodeGroup_wordXKK ..) (fieldKK_wordXKK ..) rfl, row_mem _⟩

end Sys2Proof.Laws.RowMatches
end

