-- ==== Sys2Proof/Tests/Slice0.lean ====
section
/-! SUPPORT. Tests of our own. Expected values come from spec/95_test_vectors.md (the vector's id stands
above each theorem), from the worked examples of the rules, or from words written out bit by bit from
the encodings. Then one witness for the premises of each statement that has any. -/

namespace Sys2Proof.Tests

open Sys2Proof Sys2Proof.Machine

/-! ### Helpers -/

/-- The machine after power-on. -/
def s0 : State := State.reset

/-- Memory bytes preset one after another from an address on. -/
def poke (a : Nat) (bytes : List Byte) (s : State) : State :=
  { s with mem := Memory.writeAll s.font a bytes s.mem }

/-- What one step leaves, read by f, when it answers a next state. -/
def stepped {α : Type} (f : State → α) (s : State) : Option α :=
  match step s with
  | .next t => some (f t)
  | .fault _ => none
  | .refused _ => none

/-- One step with the word w placed where it fetches. -/
def run1 {α : Type} (w : Nat) (s : State) (f : State → α) : Option α :=
  stepped f (s.withFetchWord 16 w)

/-- One host operation, then read by f. -/
def host {α : Type} (op : HostOp) (s : State) (f : State → α) : Option α :=
  stepped f { s with script := [op] }

/-- Why an operation is refused. -/
def refusedBy (op : HostOp) (s : State) : Option Refusal :=
  match perform op s with
  | .next _ => none
  | .fault _ => none
  | .refused r => some r

/-- The lit cells as (column, row). -/
def lit (s : State) : List (Nat × Nat) :=
  (List.range 32).flatMap fun y =>
    if s.disp[y]? = some 0 then []
    else ((List.range 64).filter fun x => s.pixel (y * 64 + x)).map fun x => (x, y)

/-! ### WellFormed -/

/-- 5xyN and 9xyN with N not 0, and shifts with y neither 0 nor x, are not canonical (R96, R99). -/
theorem test_canonical_refuses :
    (Instr.seReg 1 2 7).canonical = false ∧ (Instr.sneReg 1 2 15).canonical = false ∧
    (Instr.shr 1 2).canonical = false ∧ (Instr.shl 1 2).canonical = false := by decide

theorem test_canonical_accepts :
    (Instr.seReg 1 2 0).canonical = true ∧ (Instr.sneReg 1 2 0).canonical = true ∧
    (Instr.shr 1 1).canonical = true ∧ (Instr.shl 1 0).canonical = true := by decide

/-- RST-6, RST-7: 0xE00 bytes fit, 0xE01 bytes do not. -/
theorem test_rom_size :
    romFits (List.replicate 0xE00 0) = true ∧ romFits (List.replicate 0xE01 0) = false := by
  decide +kernel

/-! ### Decoding: one word or more per constructor, its nibbles written out from R94 -/

theorem test_decode_flow :
    decode [0x00, 0xE0] = .instr .cls [] ∧ decode [0x00, 0xEE] = .instr .ret [] ∧
    decode [0x12, 0x34] = .instr (.jp 0x234) [] ∧ decode [0x2A, 0xBC] = .instr (.call 0xABC) [] ∧
    decode [0xB3, 0x00] = .instr (.jpV0 0x300) [] := by decide

theorem test_decode_skip :
    decode [0x3A, 0x42] = .instr (.seImm 0xA 0x42) [] ∧
    decode [0x4A, 0x42] = .instr (.sneImm 0xA 0x42) [] ∧
    decode [0x5A, 0xB7] = .instr (.seReg 0xA 0xB 0x7) [] ∧
    decode [0x91, 0x2F] = .instr (.sneReg 0x1 0x2 0xF) [] := by decide

theorem test_decode_const :
    decode [0x6A, 0x2A] = .instr (.ldImm 0xA 0x2A) [] ∧
    decode [0x70, 0xFF] = .instr (.addImm 0x0 0xFF) [] ∧
    decode [0xC3, 0x0F] = .instr (.rnd 0x3 0x0F) [] := by decide

theorem test_decode_alu :
    decode [0x81, 0x20] = .instr (.ldReg 1 2) [] ∧ decode [0x81, 0x21] = .instr (.orReg 1 2) [] ∧
    decode [0x81, 0x22] = .instr (.andReg 1 2) [] ∧ decode [0x81, 0x23] = .instr (.xorReg 1 2) [] ∧
    decode [0x8A, 0xB4] = .instr (.addReg 0xA 0xB) [] ∧ decode [0x80, 0x15] = .instr (.sub 0 1) [] ∧
    decode [0x81, 0x26] = .instr (.shr 1 2) [] ∧ decode [0x80, 0x17] = .instr (.subn 0 1) [] ∧
    decode [0x84, 0x0E] = .instr (.shl 4 0) [] := by decide

theorem test_decode_index :
    decode [0xA1, 0x23] = .instr (.ldI 0x123) [] ∧ decode [0xF1, 0x1E] = .instr (.addI 1) [] ∧
    decode [0xF2, 0x29] = .instr (.ldF 2) [] := by decide

theorem test_decode_display_keypad :
    decode [0xD0, 0x15] = .instr (.drw 0 1 5) [] ∧ decode [0xE5, 0x9E] = .instr (.skp 5) [] ∧
    decode [0xE5, 0xA1] = .instr (.sknp 5) [] ∧ decode [0xF2, 0x0A] = .instr (.ldVxK 2) [] := by
  decide

theorem test_decode_timers_memory :
    decode [0xF3, 0x07] = .instr (.ldVxDT 3) [] ∧ decode [0xF3, 0x15] = .instr (.ldDT 3) [] ∧
    decode [0xF3, 0x18] = .instr (.ldST 3) [] ∧ decode [0xF0, 0x33] = .instr (.ldB 0) [] ∧
    decode [0xF3, 0x55] = .instr (.stRegs 3) [] ∧ decode [0xF0, 0x65] = .instr (.ldRegs 0) [] := by
  decide

/-- The undefined words of 2.1. -/
theorem test_decode_undefined :
    ∀ w ∈ ([0x0000, 0x00E1, 0x00EF, 0x00FE, 0x00F0, 0x01E0, 0x0AEE, 0x8008, 0x800F, 0x8AB9, 0x8ABD,
      0xE000, 0xE09F, 0xE0A2, 0xE1A0, 0xF000, 0xF030, 0xF075, 0xF085, 0xF0FF, 0xF11F, 0xFFFF] :
      List Nat), decodeTableWord 16 w = none := by decide

/-- Rejections are by name: a byte too few, and an undefined word (R90, R101). -/
theorem test_decode_rejects :
    decode [0x12] = .rejected .tooShort ∧
    decode [0x00, 0x00] = .rejected (.undefinedInstruction 0x0000) := by decide

/-- The encoder gives the words of the opcode map. -/
theorem test_encode :
    [encode .cls, encode (.call 0xABC), encode (.seReg 0xA 0xB 7), encode (.shl 4 0),
      encode (.drw 0 1 5), encode (.sknp 5), encode (.ldRegs 2)] =
    [0x00E0, 0x2ABC, 0x5AB7, 0x840E, 0xD015, 0xE5A1, 0xF265] := by decide

/-! ### The cycle -/

/-- CYC-1: 0x6012 at 0xFFE. -/
theorem test_cycle_last_address :
    run1 0x6012 (s0.setPc 0xFFE) (fun t => (t.getV 0, t.pc, t.run)) =
      some (0x12, 0x1000, .running) := by decide

/-- CYC-2: a fetch at 0xFFF neither advances nor ticks. -/
theorem test_cycle_fetch_fault :
    stepped (fun t => (t.run, t.finfo, t.pc, t.dt)) ((poke 0xFFF [0x60] (s0.setPc 0xFFF)).setDt 3) =
      some (.faulted .addressOutOfBounds, some ⟨0xFFF, none, some 0x1000⟩, 0xFFF, 3) := by decide

/-- CYC-4: an undefined word advances and ticks, then faults. -/
theorem test_cycle_undefined :
    run1 0x0000 ((s0.setDt 3).setSt 1) (fun t => (t.run, t.finfo, t.pc, t.dt, t.st)) =
      some (.faulted .undefinedInstruction, some ⟨0x200, some 0x0000, none⟩, 0x202, 2, 0) := by
  decide

/-- CYC-5: an odd PC, and the byte order. -/
theorem test_cycle_odd_pc :
    stepped (fun t => (t.getV 0, t.pc)) (poke 0x201 [0x60, 0x42] (s0.setPc 0x201)) =
      some (0x42, 0x203) := by decide

/-- CYC-6, CYC-7. -/
theorem test_cycle_idle :
    stepped (fun t => (t.dt, t.pc)) ((s0.setDt 5).setRun (.faulted .stackOverflow)) =
      some (5, 0x200) ∧
    stepped (fun t => (t.dt, t.pc)) (((s0.setDt 8).setPc 0x208).setRun (.awaitingKey 2)) =
      some (8, 0x208) := by decide

/-- TMR-6: both timers tick in every cycle. -/
theorem test_cycle_ticks :
    run1 0x6000 ((s0.setDt 1).setSt 255) (fun t => (t.dt, t.st)) = some (0, 254) := by decide

/-! ### Control transfer -/

/-- FLO-1. -/
theorem test_jp : run1 0x1234 s0 (fun t => t.pc) = some 0x234 := by decide

/-- FLO-3. -/
theorem test_call :
    run1 0x2ABC (s0.setPc 0xFFE) (fun t => (t.pc, t.sp, t.stackEntry 0)) =
      some (0xABC, 1, some 0x1000) := by decide

/-- FLO-6. -/
theorem test_call_overflow :
    run1 0x2300 { s0 with stack := List.replicate 16 0x202 } (fun t => (t.run, t.pc, t.sp)) =
      some (.faulted .stackOverflow, 0x202, 16) := by decide

/-- FLO-4. -/
theorem test_ret :
    run1 0x00EE { s0 with stack := [0x1000] } (fun t => (t.pc, t.sp, t.run)) =
      some (0x1000, 0, .running) := by decide

/-- FLO-5. -/
theorem test_ret_underflow :
    run1 0x00EE s0 (fun t => (t.run, t.pc, t.finfo)) =
      some (.faulted .stackUnderflow, 0x202, some ⟨0x200, some 0x00EE, none⟩) := by decide

/-- FLO-9. -/
theorem test_jpV0 :
    run1 0xBFFF (s0.setV 0 0xFF) (fun t => (t.pc, t.run)) = some (0x10FE, .running) := by decide

/-! ### Skips -/

/-- SKP-1, SKP-2. -/
theorem test_seImm :
    run1 0x3A42 (s0.setV 0xA 0x42) (fun t => t.pc) = some 0x204 ∧
    run1 0x3A42 (s0.setV 0xA 0x41) (fun t => t.pc) = some 0x202 := by decide

/-- SKP-3, SKP-4. -/
theorem test_sneImm :
    run1 0x4A42 (s0.setV 0xA 0x42) (fun t => t.pc) = some 0x202 ∧
    run1 0x4A42 (s0.setV 0xA 0x41) (fun t => t.pc) = some 0x204 := by decide

/-- SKP-6, SKP-7. -/
theorem test_seReg :
    run1 0x5120 ((s0.setV 1 7).setV 2 8) (fun t => t.pc) = some 0x202 ∧
    run1 0x5127 ((s0.setV 1 7).setV 2 7) (fun t => t.pc) = some 0x204 := by decide

/-- SKP-8, SKP-10. -/
theorem test_sneReg :
    run1 0x9120 ((s0.setV 1 7).setV 2 7) (fun t => t.pc) = some 0x202 ∧
    run1 0x912F ((s0.setV 1 7).setV 2 8) (fun t => t.pc) = some 0x204 := by decide

/-- SKP-14: a skip past the end. -/
theorem test_skip_past_end :
    run1 0x3000 (s0.setPc 0xFFE) (fun t => (t.pc, t.run)) = some (0x1002, .running) := by decide

/-! ### Constants and the random byte -/

/-- CON-2. -/
theorem test_ldImm : run1 0x6F07 s0 (fun t => t.getV vf) = some 0x07 := by decide

/-- CON-3. -/
theorem test_addImm :
    run1 0x7002 ((s0.setV 0 0xFF).setV vf 9) (fun t => (t.getV 0, t.getV vf)) = some (0x01, 9) := by
  decide

/-- CON-8. -/
theorem test_rnd :
    run1 0xC30F { s0 with draws := [0xB7, 0x11] } (fun t => (t.getV 3, t.draws)) =
      some (0x07, [0x11]) := by decide

/-- A draw past the fixed answers is counted (log 3). -/
theorem test_rnd_free : run1 0xC300 (s0.setV 3 5) (fun t => t.drawCount) = some 1 := by decide

/-! ### ALU -/

/-- ALU-L1. -/
theorem test_ldReg :
    run1 0x8120 ((s0.setV 1 0xF0).setV 2 0x3C) (fun t => (t.getV 1, t.getV 2)) =
      some (0x3C, 0x3C) := by decide

/-- ALU-L2, ALU-L3, ALU-L4, and VF is untouched. -/
theorem test_logic :
    run1 0x8121 (((s0.setV 1 0xF0).setV 2 0x3C).setV vf 7) (fun t => (t.getV 1, t.getV vf)) =
      some (0xFC, 7) ∧
    run1 0x8122 (((s0.setV 1 0xF0).setV 2 0x3C).setV vf 7) (fun t => (t.getV 1, t.getV vf)) =
      some (0x30, 7) ∧
    run1 0x8123 (((s0.setV 1 0xF0).setV 2 0x3C).setV vf 7) (fun t => (t.getV 1, t.getV vf)) =
      some (0xCC, 7) := by decide

/-- ALU-A4, ALU-F1. -/
theorem test_addReg :
    run1 0x8014 ((s0.setV 0 0xC8).setV 1 0x64) (fun t => (t.getV 0, t.getV vf)) =
      some (0x2C, 1) ∧
    run1 0x8F14 ((s0.setV vf 0xF0).setV 1 0x20) (fun t => t.getV vf) = some 1 := by decide

/-- ALU-A6, ALU-F11. -/
theorem test_sub :
    run1 0x8015 ((s0.setV 0 0x10).setV 1 0x20) (fun t => (t.getV 0, t.getV vf)) =
      some (0xF0, 0) ∧
    run1 0x8005 (s0.setV 0 0x33) (fun t => (t.getV 0, t.getV vf)) = some (0, 1) := by decide

/-- ALU-A7, ALU-F5. -/
theorem test_subn :
    run1 0x8017 ((s0.setV 0 0x20).setV 1 0x10) (fun t => (t.getV 0, t.getV vf)) =
      some (0xF0, 0) ∧
    run1 0x8F17 ((s0.setV vf 0x10).setV 1 0x20) (fun t => t.getV vf) = some 1 := by decide

/-- ALU-S1 with y = 1 (y is ignored), ALU-F13. -/
theorem test_shr :
    run1 0x8416 ((s0.setV 4 0xB5).setV 1 0x99) (fun t => (t.getV 4, t.getV vf, t.getV 1)) =
      some (0x5A, 1, 0x99) ∧
    run1 0x8F06 (s0.setV vf 3) (fun t => t.getV vf) = some 0 := by decide

/-- ALU-S1, ALU-F15. -/
theorem test_shl :
    run1 0x840E (s0.setV 4 0xB5) (fun t => (t.getV 4, t.getV vf)) = some (0x6A, 1) ∧
    run1 0x8F0E (s0.setV vf 0x81) (fun t => t.getV vf) = some 2 := by decide

/-! ### Index register -/

/-- IDX-2. -/
theorem test_ldI : run1 0xAFFF s0 (fun t => t.ir) = some 0xFFF := by decide

/-- IDX-4, IDX-5. -/
theorem test_addI :
    run1 0xF11E ((s0.setIr 0xFFF).setV 1 1) (fun t => (t.ir, t.getV vf, t.run)) =
      some (0x1000, 0, .running) ∧
    run1 0xF11E ((s0.setIr 0xFFFF).setV 1 2) (fun t => (t.ir, t.getV vf)) = some (0x0001, 0) := by
  decide

/-- IDX-7, IDX-11. -/
theorem test_ldF :
    run1 0xF229 (s0.setV 2 0x0A) (fun t => t.ir) = some 0x82 ∧
    run1 0xF229 (s0.setV 2 0xFF) (fun t => t.ir) = some 0x54B := by decide

/-! ### Display -/

/-- DSP-17. -/
theorem test_cls :
    run1 0x00E0 (((s0.setPixel 0 true).setPixel 2047 true).setV vf 1) (fun t => (lit t, t.getV vf)) =
      some ([], 1) := by decide +kernel

/-- DSP-6: a collision; DSP-4: the start wraps and the right edge clips. -/
theorem test_drw :
    run1 0xD011 ((poke 0x300 [0xF0] (s0.setIr 0x300)).setPixel 3 true)
      (fun t => (lit t, t.getV vf)) = some ([(0, 0), (1, 0), (2, 0)], 1) ∧
    run1 0xD011 (((poke 0x300 [0xFF] (s0.setIr 0x300)).setV 0 255).setV 1 255)
      (fun t => (lit t, t.getV vf)) = some ([(63, 31)], 0) := by decide +kernel

/-- DSP-14: rows before the fault stay drawn; DSP-15: rows below the edge are not read. -/
theorem test_drw_fault :
    run1 0xD013 ((poke 0xFFE [0x80, 0x40] (s0.setIr 0xFFE)).setV vf 1)
      (fun t => (lit t, t.run, t.finfo, t.getV vf, t.pc)) =
      some ([(0, 0), (1, 1)], .faulted .addressOutOfBounds,
        some ⟨0x200, some 0xD013, some 0x1000⟩, 0, 0x202) ∧
    run1 0xD013 ((poke 0xFFE [0x80, 0x40] (s0.setIr 0xFFE)).setV 1 30)
      (fun t => (lit t, t.run)) = some ([(0, 30), (1, 31)], .running) := by decide +kernel

/-! ### Keypad -/

/-- KEY-1, KEY-6. -/
theorem test_skp :
    run1 0xE59E (((s0.setPc 0x208).setV 5 7).setKey 7 true) (fun t => t.pc) = some 0x20C ∧
    run1 0xE59E (s0.setV 5 16) (fun t => (t.run, t.finfo, t.pc)) =
      some (.faulted .keyIndexOutOfRange, some ⟨0x200, some 0xE59E, some 16⟩, 0x202) := by decide

/-- KEY-4, KEY-7. -/
theorem test_sknp :
    run1 0xE5A1 ((s0.setPc 0x208).setV 5 7) (fun t => t.pc) = some 0x20C ∧
    run1 0xE5A1 (s0.setV 5 255) (fun t => (t.run, t.finfo, t.pc)) =
      some (.faulted .keyIndexOutOfRange, some ⟨0x200, some 0xE5A1, some 255⟩, 0x202) := by decide

/-- KEY-8. -/
theorem test_ldVxK :
    run1 0xF20A (((s0.setPc 0x206).setDt 9).setKey 3 true) (fun t => (t.run, t.pc, t.dt, t.getV 2)) =
      some (.awaitingKey 2, 0x208, 8, 0) := by decide

/-- KEY-10. -/
theorem test_key_arrival :
    host (.keyDown 3) (((s0.setPc 0x208).setDt 8).setRun (.awaitingKey 2))
      (fun t => (t.run, t.getV 2, t.keyAt 3, t.dt, t.pc)) =
      some (.running, 3, true, 8, 0x208) := by decide

/-! ### Timers -/

/-- TMR-2, TMR-3. -/
theorem test_ldVxDT :
    run1 0xF307 (s0.setDt 5) (fun t => (t.getV 3, t.dt)) = some (4, 4) ∧
    run1 0xF307 (s0.setV 3 9) (fun t => (t.getV 3, t.dt)) = some (0, 0) := by decide

/-- TMR-8. -/
theorem test_ldDT : run1 0xF315 ((s0.setV 3 7).setDt 1) (fun t => t.dt) = some 7 := by decide

/-- TMR-5. -/
theorem test_ldST : run1 0xF318 (s0.setV 3 0xFF) (fun t => (t.st, t.dt)) = some (255, 0) := by decide

/-! ### Memory operations -/

/-- MEM-1, MEM-9. -/
theorem test_ldB :
    run1 0xF033 ((s0.setIr 0x300).setV 0 156)
      (fun t => (t.byteAt 0x300, t.byteAt 0x301, t.byteAt 0x302, t.ir)) = some (1, 5, 6, 0x300) ∧
    run1 0xF033 ((s0.setIr 0xFFE).setV 0 234)
      (fun t => (t.byteAt 0xFFE, t.byteAt 0xFFF, t.run, t.finfo)) =
      some (2, 3, .faulted .addressOutOfBounds, some ⟨0x200, some 0xF033, some 0x1000⟩) := by decide

/-- MEM-11, MEM-15. -/
theorem test_stRegs :
    run1 0xF355 (((((s0.setIr 0x300).setV 0 10).setV 1 20).setV 2 30).setV 3 40)
      (fun t => (t.byteAt 0x300, t.byteAt 0x301, t.byteAt 0x302, t.byteAt 0x303, t.byteAt 0x304,
        t.ir)) = some (10, 20, 30, 40, 0, 0x300) ∧
    run1 0xF055 (((s0.setIr 0x300).setV 0 0xAB).setV 1 0xCD)
      (fun t => (t.byteAt 0x300, t.byteAt 0x301)) = some (0xAB, 0) := by decide

/-- MEM-17, MEM-19. -/
theorem test_ldRegs :
    run1 0xF265 ((poke 0xFFE [0xAA, 0xBB] (s0.setIr 0xFFE)).setV 2 0x77)
      (fun t => (t.getV 0, t.getV 1, t.getV 2, t.run)) =
      some (0xAA, 0xBB, 0x77, .faulted .addressOutOfBounds) ∧
    run1 0xF065 (s0.setIr 0x200) (fun t => t.getV 0) = some 0xF0 := by decide

/-! ### Host operations -/

/-- RST-1, RST-3: what power-on leaves, and a first cycle with nothing loaded. -/
theorem test_power_on :
    (s0.pc, s0.sp, s0.run, s0.byteAt 0x4F, s0.byteAt 0x50, s0.byteAt 0x9F, s0.byteAt 0xA0) =
      ((0x200, 0, .running, 0, 0xF0, 0x80, 0) : Word × Nat × RunState × Byte × Byte × Byte × Byte) ∧
    stepped (fun t => (t.run, t.finfo, t.pc)) s0 =
      some (.faulted .undefinedInstruction, some ⟨0x200, some 0x0000, none⟩, 0x202) := by decide

/-- RST-4, its memory part: 0x000 and 0x0A0 are kept, 0x0A2 is zeroed; RST-5: FONT is restored. -/
theorem test_reset_memory :
    host .reset (poke 0xA0 [0xAA, 0xAA, 0xAA] (poke 0x50 [0x00] (poke 0x000 [0xAA] s0)))
      (fun t => (t.byteAt 0x000, t.byteAt 0x50, t.byteAt 0xA0, t.byteAt 0xA1, t.byteAt 0xA2)) =
      some (0xAA, 0xF0, 0xAA, 0xAA, 0x00) := by decide

/-- KEY-15: a reset ends a wait and clears the registers. -/
theorem test_reset_registers :
    host .reset (((s0.setV 2 9).setPc 0x208).setRun (.awaitingKey 2))
      (fun t => (t.run, t.pc, t.getV 2)) = some (.running, 0x200, 0) := by decide

/-- RST-2. -/
theorem test_load_rom :
    host (.loadRom [0x12, 0x00]) s0 (fun t => (t.byteAt 0x200, t.byteAt 0x201)) =
      some (0x12, 0x00) := by decide

/-- RST-7, and loading after the first cycle: refused by name (U11, U19). -/
theorem test_load_rom_refused :
    refusedBy (.loadRom (List.replicate 0xE01 0)) s0 = some .romTooLarge ∧
    refusedBy (.loadRom [0x12]) { s0 with loadOpen := false } = some .loadAfterFirstCycle := by
  decide +kernel

/-- KEY-12, KEY-13, KEY-14. -/
theorem test_key_ops :
    host (.keyDown 4) s0 (fun t => (t.keyAt 4, t.run)) = some (true, .running) ∧
    host .clearKeys ((s0.setKey 1 true).setKey 9 true) (fun t => t.key.toList) =
      some (List.replicate 16 false) ∧
    host (.keyUp 3) ((s0.setKey 3 true).setRun (.awaitingKey 2)) (fun t => (t.keyAt 3, t.run)) =
      some (false, .awaitingKey 2) := by decide

/-- The reference host's keys (R262). -/
theorem test_keymap :
    hostKeyEvent '4' = some (.keyDown 0xC) ∧ hostKeyEvent 'x' = some (.keyDown 0x0) ∧
    hostKeyEvent 'v' = some (.keyDown 0xF) ∧ hostKeyEvent 'p' = none := by decide

/-! ### Witnesses: concrete states and operands that meet the premises of each statement -/

/-- 0x6012 at 0xFFE, the last address a fetch reaches. -/
def sLast : State := poke 0xFFE [0x60, 0x12] (s0.setPc 0xFFE)

theorem witness_EncodeOfDecodeIsTheWord : decodeWord 0x8126 = some (.shr 1 2) := by decide

theorem witness_DecoderIsTheOpcodeMap :
    (∃ r ∈ opcodeRows, r.matches 0x5AB7 = true) ∧
    (∀ r ∈ opcodeRows, ∃ w, r.matches w = true) :=
  ⟨by decide, fun r h => ⟨r.pattern, by revert r; decide⟩⟩

theorem witness_OperandGroupsAlwaysDecode :
    opcodeGroup 0x1FFF ∈ ([0x1, 0x2, 0x3, 0x4, 0x6, 0x7, 0xA, 0xB, 0xC, 0xD] : List Nibble) := by
  decide

theorem witness_StepRunsTheDecodedInstruction :
    (sLast.script = [] ∧ sLast.run = .running ∧ sLast.pc.toNat ≤ 0xFFE ∧
      decodeWord (joinBytes (sLast.byteAt sLast.pc.toNat) (sLast.byteAt (sLast.pc.toNat + 1))) =
        some (.ldImm 0 0x12)) ∧
    ({ sLast with script := [.cycle, .reset] } : State).script = .cycle :: [.reset] := by decide

/-- An undefined word at 0xFFE, the last address a fetch reaches, and PC at 0xFFF, the first that
none does. -/
theorem witness_FetchAndDispatchFaults :
    ((s0.setPc 0xFFE).script = [] ∧ (s0.setPc 0xFFE).run = .running ∧
      (s0.setPc 0xFFE).pc.toNat = 0xFFE ∧
      decodeWord (joinBytes ((s0.setPc 0xFFE).byteAt (s0.setPc 0xFFE).pc.toNat)
        ((s0.setPc 0xFFE).byteAt ((s0.setPc 0xFFE).pc.toNat + 1))) = none) ∧
    ((s0.setPc 0xFFF).script = [] ∧ (s0.setPc 0xFFF).run = .running ∧
      0xFFE < (s0.setPc 0xFFF).pc.toNat) := by decide

theorem witness_IdleCyclesChangeNothing :
    (s0.setRun (.awaitingKey 2)).run = .awaitingKey 2 ∧
    (s0.setRun (.faulted .stackOverflow)).run = .faulted .stackOverflow ∧
    (s0.setRun (.awaitingKey 2)).script = [] ∧ (s0.setRun (.awaitingKey 2)).run ≠ .running := by
  decide

/-- A word that sets no timer, one that sets DT, one that sets ST, each fetched at 0x200. -/
theorem witness_TimersTickOnceACycle :
    s0.run = .running ∧ (s0.withFetchWord 16 0x6012).fetch = .inl 0x6012 ∧
    decodeWord 0x6012 = some (.ldImm 0 0x12) ∧
    (s0.withFetchWord 16 0xF315).fetch = .inl 0xF315 ∧ decodeWord 0xF315 = some (.ldDT 3) ∧
    (s0.withFetchWord 16 0xF318).fetch = .inl 0xF318 ∧ decodeWord 0xF318 = some (.ldST 3) := by
  decide

theorem witness_CycleEndsInOneOfThreeOutcomes : s0.run = .running := by decide

/-- ADD I, V1 meets the premises of OnlyFlowInstructionsWritePc, OnlyStoresWriteMemory,
OnlyClearAndDrawWriteDisplay and OnlyCallAndReturnTouchTheStack. -/
theorem witness_OnlyRules :
    (match Instr.addI 1 with
      | .ret | .jp _ | .call _ | .jpV0 _ | .seImm _ _ | .sneImm _ _ | .seReg _ _ _ | .sneReg _ _ _
      | .skp _ | .sknp _ => False
      | _ => True) ∧
    (match Instr.addI 1 with
      | .ldB _ | .stRegs _ => False
      | _ => True) ∧
    (match Instr.addI 1 with
      | .cls | .drw _ _ _ => False
      | _ => True) ∧
    (match Instr.addI 1 with
      | .call _ | .ret => False
      | _ => True) := ⟨trivial, trivial, trivial, trivial⟩

/-- The largest x the premise of the VF rule lets through. -/
theorem witness_OnlyFlagWritersOrDestinationChangeVf : (0xE : Nibble) ≠ 0xF := by decide

/-- A consistent state at every bound: PC 0x10FE, sixteen entries of 0x1000. -/
def sEdge : State := { s0 with pc := 0x10FE, stack := List.replicate 16 0x1000, loadOpen := false }

theorem witness_edge_is_consistent : sEdge.Inv :=
  ⟨rfl, ⟨Nat.le_refl 16, fun a h => by rw [List.eq_of_mem_replicate h]; decide⟩, Nat.le_refl _, rfl,
    fun h => by cases h⟩

/-- From it a cycle answers a next state, and so does a host operation. -/
theorem witness_StepKeepsTheStateConsistent :
    (stepped (fun t => t.pc) sEdge).isSome = true ∧ (host .reset sEdge (fun t => t.pc)).isSome = true :=
  ⟨by decide, rfl⟩

/-- A faulted state whose record fits, and a step from it. -/
theorem witness_StepKeepsTheFaultRecordFitting :
    (s0.raise .stackUnderflow .ret none).RecordFits ∧
    (stepped (fun t => t.run) (s0.raise .stackUnderflow .ret none)).isSome = true := by
  refine ⟨fun k hk => ?_, by decide⟩
  cases hk
  exact ⟨_, rfl, by decide⟩

/-- CYC-2, DSP-14: a record without its word fits a fetch fault and not an execute fault (R280). -/
theorem test_record_fits :
    FaultInfo.fits .addressOutOfBounds ⟨0xFFF, none, some 0x1000⟩ = true ∧
    FaultInfo.fits .addressOutOfBounds ⟨0x200, some 0xD013, some 0x1000⟩ = true ∧
    FaultInfo.fits .addressOutOfBounds ⟨0x200, none, some 0x1000⟩ = false ∧
    FaultInfo.fits .addressOutOfBounds ⟨0xFFE, some 0xF033, some 0xFFF⟩ = false := by decide

theorem witness_RetReturnsOrUnderflows :
    0 < ({ s0 with stack := [0x1000] } : State).sp ∧ s0.sp = 0 := by decide

theorem witness_CallPushesOrOverflows :
    ({ s0 with stack := List.replicate 15 0x202 } : State).sp < 16 ∧
    16 ≤ ({ s0 with stack := List.replicate 16 0x202 } : State).sp := by decide

/-- JpJumps and JpV0JumpsByV0, targets that cannot be fetched from: 0xFFF of JP, and 0xFFF + 0 and
0xFFF + 0xFF of JP V0. -/
theorem witness_Jumps :
    run1 0x1FFF s0 (fun t => (t.pc.toNat, t.fetch)) = some (0xFFF, .inr 0x1000) ∧
    run1 0xBFFF s0 (fun t => (t.pc.toNat, t.fetch)) = some (0xFFF, .inr 0x1000) ∧
    run1 0xBFFF (s0.setV 0 0xFF) (fun t => (t.pc.toNat, t.fetch)) = some (0x10FE, .inr 0x10FE) := by
  decide

theorem witness_RndLoadsMaskedDraw :
    ({ s0 with draws := [0xB7, 0x11] } : State).draws = 0xB7 :: [0x11] ∧ s0.draws = [] ∧
    Instr.cls ≠ .rnd 0 0 ∧ s0.fetch = .inl 0x0000 ∧ decodeWord 0x0000 = none := by decide

/-- The registers of the clauses "x is not VF" and "r is neither x nor VF" of AddImmAddsWithoutCarry,
LogicOperations, AddRegAddsWithCarryOut, SubtractWithNotBorrow and ShiftsByOneInPlace. -/
theorem witness_AluRegisters :
    (0xE : Nibble) ≠ 0xF ∧ (0x0 : Nibble) ≠ 0xE ∧ (0x0 : Nibble) ≠ 0xF := by decide

/-- DSP-15: of three rows at 0xFFE the third lies below the bottom edge and is not read. -/
theorem witness_DrawIsXorWithClippedMask :
    ∀ r < 3, r + (((s0.setIr 0xFFE).setV 1 30).getV 1).toNat % 32 ≤ 31 →
      ((s0.setIr 0xFFE).setV 1 30).ir.toNat + r ≤ 0xFFF := by decide

/-- DSP-14: row 2 at 0xFFE is read from 0x1000; and row 0 with IR outside the memory. -/
theorem witness_DrawFaultKeepsEarlierRows :
    (2 < (3 : Nibble).toNat ∧ 2 + ((s0.setIr 0xFFE).getV 1).toNat % 32 ≤ 31 ∧
      0xFFF < (s0.setIr 0xFFE).ir.toNat + 2) ∧
    (0 < (1 : Nibble).toNat ∧ 0 + ((s0.setIr 0x1000).getV 1).toNat % 32 ≤ 31 ∧
      0xFFF < (s0.setIr 0x1000).ir.toNat + 0) := by decide

/-- The last row at 0xFFF is inside the memory; V14 and V0 are not VF. -/
theorem witness_DrawingTwiceRestoresTheDisplay :
    (0x0 : Nibble) ≠ 0xF ∧ (0xE : Nibble) ≠ 0xF ∧
    ∀ r < 1, r + ((s0.setIr 0xFFF).getV 0xE).toNat % 32 ≤ 31 →
      (s0.setIr 0xFFF).ir.toNat + r ≤ 0xFFF := by decide

/-- The largest key index, and the smallest and the largest value that is none. -/
theorem witness_KeySkipsOrIndexFault :
    ((s0.setV 5 15).getV 5).toNat = (0xF : Nibble).toNat ∧
    15 < ((s0.setV 5 16).getV 5).toNat ∧ 15 < ((s0.setV 5 255).getV 5).toNat := by decide

theorem witness_LdVxDTReadsTickedTimer :
    s0.run = .running ∧ (s0.withFetchWord 16 0xF307).fetch = .inl 0xF307 ∧
    decodeWord 0xF307 = some (.ldVxDT 3) := by decide

/-- TMR-7 after an Fx15: the next word sets no timer. -/
theorem witness_LdDTSetsDelayTimer :
    s0.run = .running ∧ (poke 0x200 [0xF3, 0x15, 0x60, 0x00] s0).fetch = .inl 0xF315 ∧
    decodeWord 0xF315 = some (.ldDT 3) ∧
    stepped (fun t => t.fetch) (poke 0x200 [0xF3, 0x15, 0x60, 0x00] s0) = some (.inl 0x6000) ∧
    decodeWord 0x6000 = some (.ldImm 0 0) := by decide

/-- LdBStoresDecimalDigits, StRegsStoresTheBlock, LdRegsLoadsTheBlock: the last IR they complete at. -/
theorem witness_MemoryOperations :
    s0.MemOk ∧ (s0.setIr 0xFFD).ir.toNat + 2 ≤ 0xFFF ∧
    (s0.setIr 0xFF0).ir.toNat + (0xF : Nibble).toNat ≤ 0xFFF := by decide

/-- The first IR at which Fx33 faults, a block whose last byte is at 0x1000, and IR at 0x1000. -/
theorem witness_MemoryFaultsKeepEarlierBytes :
    s0.MemOk ∧ 0xFFF < (s0.setIr 0xFFE).ir.toNat + 2 ∧ (s0.setIr 0xFFE).ir.toNat + 1 ≤ 0xFFF ∧
    0xFFF < (s0.setIr 0xFF1).ir.toNat + (0xF : Nibble).toNat ∧
    0xFFF < (s0.setIr 0x1000).ir.toNat + (0x0 : Nibble).toNat := by decide

/-- The last address inside and the first outside, and two canonical memories that read alike. -/
theorem witness_MemoryReadsTheLastWrite :
    s0.MemOk ∧ (poke 0xFFF [7] s0).MemOk ∧ (0xFFF : Nat) ≤ 0xFFF ∧ (0xFFF : Nat) < 0x1000 ∧
    (poke 0xFFF [0] (poke 0xFFF [7] s0)).MemOk ∧
    (poke 0xFFF [0] (poke 0xFFF [7] s0)).font = s0.font ∧
    ∀ a, (poke 0xFFF [0] (poke 0xFFF [7] s0)).byteAt a = s0.byteAt a :=
  ⟨by decide, by decide, by decide, by decide, by decide, rfl, fun _ => rfl⟩

theorem witness_FetchSeesTheStore : s0.MemOk ∧ (s0.setPc 0xFFE).pc.toNat ≤ 0xFFE := by decide

/-- The largest image that fits, the smallest that does not, and a core whose first cycle is past. -/
theorem witness_LoadRomLoadsOrIsRefused :
    s0.MemOk ∧ s0.loadOpen = true ∧ (List.replicate 0xE00 (0 : Byte)).length ≤ 0xE00 ∧
    0xE00 < (List.replicate 0xE01 (0 : Byte)).length ∧
    stepped (fun t => t.loadOpen) sLast = some false := by decide +kernel

theorem witness_KeyDownSetsFlagAndEndsWait :
    (s0.setRun (.awaitingKey 2)).run = .awaitingKey 2 ∧ s0.run ≠ .awaitingKey 2 ∧
    hostKeymap.lookup 'p' = none := by decide

end Sys2Proof.Tests
end

section
/-! PROOFS. The decoder by group, the sub-selectors of groups 8, E and F, and the statements
GroupsEAndFSelectOnKk, Group8SelectsOnN and OperandGroupsAlwaysDecode (30_encoding.md R96 to R98,
R100). -/

namespace Sys2Proof

open Sys2Proof.Machine

/-! ### What the decoder answers in each group (R94) -/

section

variable {w : Word}

theorem decodeWord_group0 (h : opcodeGroup w = 0x0) :
    decodeWord w = decodeGroup0 w := by
  rw [decodeWord, h]; rfl

theorem decodeWord_group1 (h : opcodeGroup w = 0x1) :
    decodeWord w = some (.jp (fieldNNN w)) := by
  rw [decodeWord, h]; rfl

theorem decodeWord_group2 (h : opcodeGroup w = 0x2) :
    decodeWord w = some (.call (fieldNNN w)) := by
  rw [decodeWord, h]; rfl

theorem decodeWord_group3 (h : opcodeGroup w = 0x3) :
    decodeWord w = some (.seImm (fieldX w) (fieldKK w)) := by
  rw [decodeWord, h]; rfl

theorem decodeWord_group4 (h : opcodeGroup w = 0x4) :
    decodeWord w = some (.sneImm (fieldX w) (fieldKK w)) := by
  rw [decodeWord, h]; rfl

theorem decodeWord_group5 (h : opcodeGroup w = 0x5) :
    decodeWord w = some (.seReg (fieldX w) (fieldY w) (fieldN w)) := by
  rw [decodeWord, h]; rfl

theorem decodeWord_group6 (h : opcodeGroup w = 0x6) :
    decodeWord w = some (.ldImm (fieldX w) (fieldKK w)) := by
  rw [decodeWord, h]; rfl

theorem decodeWord_group7 (h : opcodeGroup w = 0x7) :
    decodeWord w = some (.addImm (fieldX w) (fieldKK w)) := by
  rw [decodeWord, h]; rfl

theorem decodeWord_group8 (h : opcodeGroup w = 0x8) :
    decodeWord w = decodeGroup8 (fieldX w) (fieldY w) (fieldN w) := by
  rw [decodeWord, h]; rfl

theorem decodeWord_group9 (h : opcodeGroup w = 0x9) :
    decodeWord w = some (.sneReg (fieldX w) (fieldY w) (fieldN w)) := by
  rw [decodeWord, h]; rfl

theorem decodeWord_groupA (h : opcodeGroup w = 0xA) :
    decodeWord w = some (.ldI (fieldNNN w)) := by
  rw [decodeWord, h]; rfl

theorem decodeWord_groupB (h : opcodeGroup w = 0xB) :
    decodeWord w = some (.jpV0 (fieldNNN w)) := by
  rw [decodeWord, h]; rfl

theorem decodeWord_groupC (h : opcodeGroup w = 0xC) :
    decodeWord w = some (.rnd (fieldX w) (fieldKK w)) := by
  rw [decodeWord, h]; rfl

theorem decodeWord_groupD (h : opcodeGroup w = 0xD) :
    decodeWord w = some (.drw (fieldX w) (fieldY w) (fieldN w)) := by
  rw [decodeWord, h]; rfl

theorem decodeWord_groupE (h : opcodeGroup w = 0xE) :
    decodeWord w = decodeGroupE (fieldX w) (fieldKK w) := by
  rw [decodeWord, h]; rfl

theorem decodeWord_groupF (h : opcodeGroup w = 0xF) :
    decodeWord w = decodeGroupF (fieldX w) (fieldKK w) := by
  rw [decodeWord, h]; rfl

end

/-! ### Words of the groups with a sub-selector, by their format -/

theorem decodeWord_wordXYN_8 (x y n : Nibble) :
    decodeWord (wordXYN 0x8 x y n) = decodeGroup8 x y n := by
  rw [decodeWord_group8 (opcodeGroup_wordXYN ..), fieldX_wordXYN, fieldY_wordXYN, fieldN_wordXYN]

theorem decodeWord_wordXKK_E (x : Nibble) (kk : Byte) :
    decodeWord (wordXKK 0xE x kk) = decodeGroupE x kk := by
  rw [decodeWord_groupE (opcodeGroup_wordXKK ..), fieldX_wordXKK, fieldKK_wordXKK]

theorem decodeWord_wordXKK_F (x : Nibble) (kk : Byte) :
    decodeWord (wordXKK 0xF x kk) = decodeGroupF x kk := by
  rw [decodeWord_groupF (opcodeGroup_wordXKK ..), fieldX_wordXKK, fieldKK_wordXKK]

/-! ### The values of a sub-selector that are undefined, and how many they are -/

/-- The values of n that select an instruction of group 8 (R96). -/
def nValues8 : List Nibble := [0x0, 0x1, 0x2, 0x3, 0x4, 0x5, 0x6, 0x7, 0xE]

/-- The values of kk that select an instruction of group E (R97). -/
def kkValuesE : List Byte := [0x9E, 0xA1]

/-- The values of kk that select an instruction of group F (R98). -/
def kkValuesF : List Byte := [0x07, 0x0A, 0x15, 0x18, 0x1E, 0x29, 0x33, 0x55, 0x65]

theorem decodeWord_wordXYN_8_isNone_iff (x y n : Nibble) :
    (decodeWord (wordXYN 0x8 x y n)).isNone = true ↔ n ∉ nValues8 := by
  rw [decodeWord_wordXYN_8, decodeGroup8]
  split_ifs <;> simp_all [nValues8]

theorem decodeWord_wordXKK_E_isNone_iff (x : Nibble) (kk : Byte) :
    (decodeWord (wordXKK 0xE x kk)).isNone = true ↔ kk ∉ kkValuesE := by
  rw [decodeWord_wordXKK_E, decodeGroupE]
  split_ifs <;> simp_all [kkValuesE]

theorem decodeWord_wordXKK_F_isNone_iff (x : Nibble) (kk : Byte) :
    (decodeWord (wordXKK 0xF x kk)).isNone = true ↔ kk ∉ kkValuesF := by
  rw [decodeWord_wordXKK_F, decodeGroupF]
  split_ifs <;> simp_all [kkValuesF]

/-- Every value of a width, as the statements enumerate them. -/
def allValues (m : Nat) : List (BitVec m) := (List.range (2 ^ m)).map (BitVec.ofNat m)

theorem length_allValues (m : Nat) : (allValues m).length = 2 ^ m := by simp [allValues]

theorem mem_allValues {m : Nat} (k : BitVec m) : k ∈ allValues m :=
  List.mem_map.2 ⟨k.toNat, List.mem_range.2 k.isLt, by simp⟩

theorem nodup_allValues (m : Nat) : (allValues m).Nodup := by
  refine List.nodup_range.map_on fun a ha b hb hab => ?_
  have h := congrArg BitVec.toNat hab
  rwa [BitVec.toNat_ofNat, BitVec.toNat_ofNat, Nat.mod_eq_of_lt (List.mem_range.1 ha),
    Nat.mod_eq_of_lt (List.mem_range.1 hb)] at h

theorem countP_mem_allValues {m : Nat} {l : List (BitVec m)} (hl : l.Nodup) :
    (allValues m).countP (· ∈ l) = l.length := by
  have hperm : ((allValues m).filter (· ∈ l)).Perm l :=
    (List.perm_ext_iff_of_nodup ((nodup_allValues m).filter _) hl).2
      fun k => by simp [mem_allValues]
  rw [List.countP_eq_length_filter, hperm.length_eq]

/-- Where exactly the values outside `l` are undefined, all but `l.length` of the 2^m values are. -/
theorem countP_isNone_eq {α : Type} {m : Nat} {f : BitVec m → Option α} {l : List (BitVec m)}
    (hl : l.Nodup) (hf : ∀ k, (f k).isNone = true ↔ k ∉ l) :
    (List.range (2 ^ m)).countP (fun k => (f (BitVec.ofNat m k)).isNone) = 2 ^ m - l.length := by
  have hundefined : (List.range (2 ^ m)).countP (fun k => (f (BitVec.ofNat m k)).isNone) =
      (allValues m).countP (fun k => ¬ decide (k ∈ l) = true) := by
    rw [allValues, List.countP_map]
    exact List.countP_congr fun k _ => by simp [hf]
  have hsplit := List.length_eq_countP_add_countP (· ∈ l) (l := allValues m)
  rw [length_allValues, countP_mem_allValues hl] at hsplit
  omega

/-! ### Groups E and F -/

/-- Settles O5: both groups are their sub-decoders, and the undefined values of kk are those outside
the 2 and the 9 that select an instruction. -/
theorem groupsEAndFSelectOnKk : Obligations.GroupsEAndFSelectOnKk :=
  ⟨decodeWord_wordXKK_E, decodeWord_wordXKK_F, fun x =>
    ⟨countP_isNone_eq (l := kkValuesE) (by decide) (decodeWord_wordXKK_E_isNone_iff x),
      countP_isNone_eq (l := kkValuesF) (by decide) (decodeWord_wordXKK_F_isNone_iff x)⟩⟩

/-! ### Group 8 -/

/-- 8xy6 does not use y (R96). -/
theorem exec_shr_ignores_y (x y y' : Nibble) (s : State) :
    exec (.shr x y) s = exec (.shr x y') s := rfl

/-- 8xyE does not use y (R96). -/
theorem exec_shl_ignores_y (x y y' : Nibble) (s : State) :
    exec (.shl x y) s = exec (.shl x y') s := rfl

theorem canonical_shr_iff (x y : Nibble) : (Instr.shr x y).canonical = true ↔ y = 0 ∨ y = x := by
  simp [Instr.canonical]

theorem canonical_shl_iff (x y : Nibble) : (Instr.shl x y).canonical = true ↔ y = 0 ∨ y = x := by
  simp [Instr.canonical]

/-- Settles O6: group 8 is its sub-decoder, undefined for the n outside the 9 that select an
instruction; the shifts ignore y. -/
theorem group8SelectsOnN : Obligations.Group8SelectsOnN :=
  ⟨decodeWord_wordXYN_8,
    fun x y => countP_isNone_eq (l := nValues8) (by decide) (decodeWord_wordXYN_8_isNone_iff x y),
    fun x y y' s => ⟨exec_shr_ignores_y x y y' s, exec_shl_ignores_y x y y' s⟩,
    fun x y => ⟨canonical_shr_iff x y, canonical_shl_iff x y⟩⟩

/-! ### The groups with operands only -/

/-- Every word of the ten groups without a sub-selector decodes (R100). -/
theorem decodeWord_isSome_of_operandGroup {w : Word}
    (h : opcodeGroup w ∈ ([0x1, 0x2, 0x3, 0x4, 0x6, 0x7, 0xA, 0xB, 0xC, 0xD] : List Nibble)) :
    (decodeWord w).isSome = true := by
  simp only [List.mem_cons, List.not_mem_nil, or_false] at h
  obtain h | h | h | h | h | h | h | h | h | h := h
  · rw [decodeWord_group1 h, Option.isSome_some]
  · rw [decodeWord_group2 h, Option.isSome_some]
  · rw [decodeWord_group3 h, Option.isSome_some]
  · rw [decodeWord_group4 h, Option.isSome_some]
  · rw [decodeWord_group6 h, Option.isSome_some]
  · rw [decodeWord_group7 h, Option.isSome_some]
  · rw [decodeWord_groupA h, Option.isSome_some]
  · rw [decodeWord_groupB h, Option.isSome_some]
  · rw [decodeWord_groupC h, Option.isSome_some]
  · rw [decodeWord_groupD h, Option.isSome_some]

/-- Each of the sixteen groups has a row of the opcode map, whose word with zero operands decodes. -/
theorem exists_row_of_group (g : Nibble) : ∃ r ∈ opcodeRows,
    opcodeGroup r.pattern = g ∧ (decodeWord r.pattern).isSome = true := by
  revert g
  decide

/-- Settles O7, from the decoder's answer in each group; a word of each of the sixteen groups is
found among the rows of the opcode map. -/
theorem operandGroupsAlwaysDecode : Obligations.OperandGroupsAlwaysDecode := by
  refine ⟨fun a => ?_, fun x kk => ?_, fun x y n => ?_,
    fun w => decodeWord_isSome_of_operandGroup, fun g => ?_⟩
  · simp [decodeWord_group1, decodeWord_group2, decodeWord_groupA, decodeWord_groupB]
  · simp [decodeWord_group3, decodeWord_group4, decodeWord_group6, decodeWord_group7,
      decodeWord_groupC]
  · simp [decodeWord_groupD]
  · obtain ⟨r, -, hr⟩ := exists_row_of_group g
    exact ⟨r.pattern, hr⟩

end Sys2Proof
end

section
/-! PROOFS. A decoded word is its instruction's encoding, and by it which words the rows of mask
0xF000 decode; the two jumps, JpJumps and JpV0JumpsByV0 (41_flow.md R141, R143). -/

namespace Sys2Proof

open Sys2Proof.Machine

/-! ### A decoded word is the encoding of its instruction (R92, R94) -/

section

variable {w : Word} {g : Nibble}

theorem wordNNN_of_group (h : opcodeGroup w = g) : wordNNN g (fieldNNN w) = w :=
  h ▸ word_eq_NNN w

theorem wordXKK_of_group (h : opcodeGroup w = g) : wordXKK g (fieldX w) (fieldKK w) = w :=
  h ▸ word_eq_XKK w

theorem wordXYN_of_group (h : opcodeGroup w = g) :
    wordXYN g (fieldX w) (fieldY w) (fieldN w) = w :=
  h ▸ word_eq_XYN w

theorem encode_of_decodeWord {i : Instr} (h : decodeWord w = some i) : encode i = w := by
  unfold decodeWord at h
  split at h
  next => exact encode_decodeGroup0 h
  next hg => cases h; exact wordNNN_of_group hg
  next hg => cases h; exact wordNNN_of_group hg
  next hg => cases h; exact wordXKK_of_group hg
  next hg => cases h; exact wordXKK_of_group hg
  next hg => cases h; exact wordXYN_of_group hg
  next hg => cases h; exact wordXKK_of_group hg
  next hg => cases h; exact wordXKK_of_group hg
  next hg => exact (encode_decodeGroup8 h).trans (wordXYN_of_group hg)
  next hg => cases h; exact wordXYN_of_group hg
  next hg => cases h; exact wordNNN_of_group hg
  next hg => cases h; exact wordNNN_of_group hg
  next hg => cases h; exact wordXKK_of_group hg
  next hg => cases h; exact wordXYN_of_group hg
  next hg => exact (encode_decodeGroupE h).trans (wordXKK_of_group hg)
  next hg => exact (encode_decodeGroupF h).trans (wordXKK_of_group hg)
  next => cases h

end

/-- Where group `g` decodes to `f w`, and `f w` encodes to a word of group `g`, the words read as
`f w` are exactly those of the row with mask 0xF000 and group `g`. -/
theorem encodedAs_of_group {g : Nibble} {f : Word → Instr}
    (hdecode : ∀ w, opcodeGroup w = g → decodeWord w = some (f w))
    (hencode : ∀ w, opcodeGroup (encode (f w)) = g) : EncodedAs 0xF000 (wordNNN g 0) f := by
  intro w
  have hgroup : decodeWord w = some (f w) ↔ opcodeGroup w = g :=
    ⟨fun h => encode_of_decodeWord h ▸ hencode w, hdecode w⟩
  exact hgroup.trans (mask_group_iff w g).symm

/-! ### The jump targets -/

@[simp] theorem absAddr_toNat (nnn : Addr) : (absAddr nnn).toNat = nnn.toNat :=
  BitVec.toNat_setWidth_of_le (by decide)

@[simp] theorem wide_toNat (b : Byte) : (wide b).toNat = b.toNat :=
  BitVec.toNat_setWidth_of_le (by decide)

/-- The sum of R143 fits 16 bits, so it is not reduced. -/
@[simp] theorem State.targetV0_toNat (nnn : Addr) (s : State) :
    (s.targetV0 nnn).toNat = nnn.toNat + (s.getV 0).toNat := by
  have hnnn := nnn.isLt
  have hv0 := (s.getV 0).isLt
  rw [State.targetV0, BitVec.toNat_add, absAddr_toNat, wide_toNat, Nat.mod_eq_of_lt (by omega)]

theorem onlyPc_setPc (s : State) (a : Word) : OnlyPc s (s.setPc a) :=
  ⟨rfl, State.setPc_byteAt s a⟩

/-! ### JP nnn and JP V0, nnn -/

theorem exec_jp (nnn : Addr) (s : State) : exec (.jp nnn) s = .next (s.setPc (absAddr nnn)) := rfl

theorem exec_jpV0 (nnn : Addr) (s : State) :
    exec (.jpV0 nnn) s = .next (s.setPc (s.targetV0 nnn)) := rfl

theorem encodedAs_jp : EncodedAs 0xF000 0x1000 (fun w => .jp (fieldNNN w)) :=
  encodedAs_of_group (g := 0x1) (fun _ => decodeWord_group1) (fun _ => opcodeGroup_wordNNN _ _)

theorem encodedAs_jpV0 : EncodedAs 0xF000 0xB000 (fun w => .jpV0 (fieldNNN w)) :=
  encodedAs_of_group (g := 0xB) (fun _ => decodeWord_groupB) (fun _ => opcodeGroup_wordNNN _ _)

/-- Settles O25: the target fits PC, and from 0xFFF the second byte of the fetch is outside. -/
theorem jpJumps : Obligations.JpJumps := by
  refine ⟨encodedAs_jp, fun nnn s => ⟨_, exec_jp nnn s, absAddr_toNat nnn, onlyPc_setPc s _, ?_⟩⟩
  rintro rfl
  have hpc : (s.setPc (absAddr 0xFFF)).pc.toNat = 0xFFF := absAddr_toNat 0xFFF
  rw [State.fetch_out _ (by rw [hpc]; decide), hpc]
  rfl

/-- Settles O27: the sum of a 12-bit and an 8-bit value is at most 0x10FE, and above 0xFFE the fetch
is outside the memory. -/
theorem jpV0JumpsByV0 : Obligations.JpV0JumpsByV0 := by
  refine ⟨encodedAs_jpV0, fun nnn s => ⟨_, exec_jpV0 nnn s, State.targetV0_toNat nnn s, ?_,
    onlyPc_setPc s _, State.fetch_out _⟩⟩
  have hnnn := nnn.isLt
  have hv0 := (s.getV 0).isLt
  rw [State.setPc_pc, State.targetV0_toNat]
  omega

end Sys2Proof
end

section
/-! PROOFS. What a conditional skip leaves, and the skips on a constant, ImmediateSkips (42_skip.md
R150 to R152). -/

namespace Sys2Proof

open Sys2Proof.Machine

/-! ### A conditional skip -/

@[simp] theorem State.skipIf_pc (c : Bool) (s : State) :
    (s.skipIf c).pc = if c then s.pc + 2 else s.pc := by
  rw [State.skipIf_eq, State.setPc_pc]

theorem onlyPc_skipIf (c : Bool) (s : State) : OnlyPc s (s.skipIf c) := by
  rw [State.skipIf_eq]
  exact onlyPc_setPc s _

theorem State.skipIf_beq_pc {α : Type} [DecidableEq α] (a b : α) (s : State) :
    (s.skipIf (a == b)).pc = if a = b then s.pc + 2 else s.pc := by
  simp only [State.skipIf_pc, beq_iff_eq]

theorem State.skipIf_bne_pc {α : Type} [DecidableEq α] (a b : α) (s : State) :
    (s.skipIf (a != b)).pc = if a = b then s.pc else s.pc + 2 := by
  simp only [State.skipIf_pc, bne_iff_ne, ite_not]

/-! ### SE Vx, kk and SNE Vx, kk -/

theorem exec_seImm (x : Nibble) (kk : Byte) (s : State) :
    exec (.seImm x kk) s = .next (s.skipIf (s.getV x == kk)) := rfl

theorem exec_sneImm (x : Nibble) (kk : Byte) (s : State) :
    exec (.sneImm x kk) s = .next (s.skipIf (s.getV x != kk)) := rfl

theorem encodedAs_seImm : EncodedAs 0xF000 0x3000 (fun w => .seImm (fieldX w) (fieldKK w)) :=
  encodedAs_of_group (g := 0x3) (fun _ => decodeWord_group3) (fun _ => opcodeGroup_wordXKK _ _ _)

theorem encodedAs_sneImm : EncodedAs 0xF000 0x4000 (fun w => .sneImm (fieldX w) (fieldKK w)) :=
  encodedAs_of_group (g := 0x4) (fun _ => decodeWord_group4) (fun _ => opcodeGroup_wordXKK _ _ _)

/-- Settles O28: both are a conditional skip, on the comparison of Vx with kk and on its opposite. -/
theorem immediateSkips : Obligations.ImmediateSkips := by
  refine ⟨encodedAs_seImm, encodedAs_sneImm, fun x kk s => ⟨?se, ?sne⟩⟩
  case se => exact ⟨_, exec_seImm x kk s, State.skipIf_beq_pc _ _ s, onlyPc_skipIf _ s⟩
  case sne => exact ⟨_, exec_sneImm x kk s, State.skipIf_bne_pc _ _ s, onlyPc_skipIf _ s⟩

end Sys2Proof
end

section
/-! PROOFS. What the write of one register leaves, and the two instructions with a constant,
LdImmLoadsConstant and AddImmAddsWithoutCarry (43_const_random.md R160, R161). -/

namespace Sys2Proof

open Sys2Proof.Machine

/-! ### The write of one register -/

theorem onlyV_setV (s : State) (x : Nibble) (b : Byte) : OnlyV s (s.setV x b) :=
  ⟨rfl, State.setV_byteAt s x b⟩

theorem State.getV_setV_same (x : Nibble) (b : Byte) (s : State) : (s.setV x b).getV x = b := by
  rw [State.getV_setV, if_pos rfl]

theorem State.getV_setV_of_ne {x r : Nibble} (h : r ≠ x) (b : Byte) (s : State) :
    (s.setV x b).getV r = s.getV r := by
  rw [State.getV_setV, if_neg h]

/-! ### LD Vx, kk and ADD Vx, kk -/

theorem exec_ldImm (x : Nibble) (kk : Byte) (s : State) :
    exec (.ldImm x kk) s = .next (s.setV x kk) := rfl

theorem exec_addImm (x : Nibble) (kk : Byte) (s : State) :
    exec (.addImm x kk) s = .next (s.setV x (s.getV x + kk)) := rfl

theorem encodedAs_ldImm : EncodedAs 0xF000 0x6000 (fun w => .ldImm (fieldX w) (fieldKK w)) :=
  encodedAs_of_group (g := 0x6) (fun _ => decodeWord_group6) (fun _ => opcodeGroup_wordXKK _ _ _)

theorem encodedAs_addImm : EncodedAs 0xF000 0x7000 (fun w => .addImm (fieldX w) (fieldKK w)) :=
  encodedAs_of_group (g := 0x7) (fun _ => decodeWord_group7) (fun _ => opcodeGroup_wordXKK _ _ _)

/-- Settles O30: the step is the write of `kk` to Vx, and what a register reads after it says the
rest. -/
theorem ldImmLoadsConstant : Obligations.LdImmLoadsConstant :=
  ⟨encodedAs_ldImm, fun x kk s =>
    ⟨_, exec_ldImm x kk s, fun r => State.getV_setV s x r kk, onlyV_setV s x kk⟩⟩

/-- Settles O31: the step is one register write, so VF keeps its value unless x is 15, and the sum
of two bytes is Lean's own, modulo 256. -/
theorem addImmAddsWithoutCarry : Obligations.AddImmAddsWithoutCarry := by
  refine ⟨encodedAs_addImm, fun x kk s => ⟨_, exec_addImm x kk s, ?sum,
    fun r hr => State.getV_setV_of_ne hr _ s, onlyV_setV s x _⟩⟩
  case sum => rw [State.getV_setV_same, BitVec.toNat_add]

end Sys2Proof
end

section
/-! PROOFS. Which words group 8 decodes to each of its instructions, and the copy and the bitwise
operations, LdRegCopies and LogicOperations (44_alu.md R171 to R174). -/

namespace Sys2Proof

open Sys2Proof.Machine

/-! ### The words of an instruction of group 8 (R96) -/

/-- Where the sub-selector `n` of group 8 selects `f x y`, the words read as `f` of their x and y are
exactly those of the row with mask 0xF00F, group 8 and `n`. -/
theorem encodedAs_of_group8 {n : Nibble} {f : Nibble → Nibble → Instr}
    (hselect : ∀ x y, decodeGroup8 x y n = some (f x y)) :
    EncodedAs 0xF00F (wordXYN 0x8 0 0 n) (fun w => f (fieldX w) (fieldY w)) := by
  intro w
  refine Iff.trans ⟨fun h => ?_, fun ⟨hgroup, hn⟩ => ?_⟩ (mask_group_n_iff w 0x8 n).symm
  · have hword : wordXYN 0x8 (fieldX w) (fieldY w) n = w :=
      (encode_decodeGroup8 (hselect _ _)).symm.trans (encode_of_decodeWord h)
    rw [← hword]
    exact ⟨opcodeGroup_wordXYN .., fieldN_wordXYN ..⟩
  · rw [decodeWord_group8 hgroup, hn, hselect]

theorem encodedAs_ldReg : EncodedAs 0xF00F 0x8000 (fun w => .ldReg (fieldX w) (fieldY w)) :=
  encodedAs_of_group8 (n := 0x0) (fun _ _ => rfl)

theorem encodedAs_orReg : EncodedAs 0xF00F 0x8001 (fun w => .orReg (fieldX w) (fieldY w)) :=
  encodedAs_of_group8 (n := 0x1) (fun _ _ => rfl)

theorem encodedAs_andReg : EncodedAs 0xF00F 0x8002 (fun w => .andReg (fieldX w) (fieldY w)) :=
  encodedAs_of_group8 (n := 0x2) (fun _ _ => rfl)

theorem encodedAs_xorReg : EncodedAs 0xF00F 0x8003 (fun w => .xorReg (fieldX w) (fieldY w)) :=
  encodedAs_of_group8 (n := 0x3) (fun _ _ => rfl)

/-! ### LD, OR, AND and XOR Vx, Vy -/

section

variable (x y : Nibble) (s : State)

theorem exec_ldReg : exec (.ldReg x y) s = .next (s.setV x (s.getV y)) := rfl

theorem exec_orReg : exec (.orReg x y) s = .next (s.setV x (s.getV x ||| s.getV y)) := rfl

theorem exec_andReg : exec (.andReg x y) s = .next (s.setV x (s.getV x &&& s.getV y)) := rfl

theorem exec_xorReg : exec (.xorReg x y) s = .next (s.setV x (s.getV x ^^^ s.getV y)) := rfl

end

/-- Settles O33: the step is the write of Vy to Vx, and what a register reads after it says the
rest. -/
theorem ldRegCopies : Obligations.LdRegCopies :=
  ⟨encodedAs_ldReg, fun x y s =>
    ⟨_, exec_ldReg x y s, fun r => State.getV_setV s x r _, onlyV_setV s x _⟩⟩

/-- Settles O34: each of the three is one register write, so VF keeps its value unless x is 15, and
the bits of the value written are those of the bitwise operation. -/
theorem logicOperations : Obligations.LogicOperations := by
  refine ⟨encodedAs_orReg, encodedAs_andReg, encodedAs_xorReg, fun x y s =>
    ⟨⟨_, exec_orReg x y s, fun j => ?or, fun r hr => State.getV_setV_of_ne hr _ s, onlyV_setV s x _⟩,
      ⟨_, exec_andReg x y s, fun j => ?and, fun r hr => State.getV_setV_of_ne hr _ s,
        onlyV_setV s x _⟩,
      ⟨_, exec_xorReg x y s, fun j => ?xor, fun r hr => State.getV_setV_of_ne hr _ s,
        onlyV_setV s x _⟩⟩⟩
  case or => rw [State.getV_setV_same, BitVec.getLsbD_or]
  case and => rw [State.getV_setV_same, BitVec.getLsbD_and]
  case xor => rw [State.getV_setV_same, BitVec.getLsbD_xor]

end Sys2Proof
end

section
/-! PROOFS. What a result followed by a flag leaves, and the sum and the differences of two
registers, AddRegAddsWithCarryOut and SubtractWithNotBorrow (44_alu.md R175, R176, R178). -/

namespace Sys2Proof

open Sys2Proof.Machine

/-! ### A result to Vx, then a flag to VF (R36) -/

section

variable {x r : Nibble} (result flag : Byte) (s : State)

theorem onlyV_resultThenFlag : OnlyV s (s.resultThenFlag x result flag) :=
  ⟨State.resultThenFlag_eq s x result flag, fun _ => rfl⟩

theorem State.resultThenFlag_getV_vf : (s.resultThenFlag x result flag).getV vf = flag := by
  rw [State.resultThenFlag_getV, if_pos rfl]

theorem State.resultThenFlag_getV_same (hx : x ≠ vf) :
    (s.resultThenFlag x result flag).getV x = result := by
  rw [State.resultThenFlag_getV, if_neg hx, if_pos rfl]

theorem State.resultThenFlag_getV_of_ne (hx : r ≠ x) (hvf : r ≠ vf) :
    (s.resultThenFlag x result flag).getV r = s.getV r := by
  rw [State.resultThenFlag_getV, if_neg hvf, if_neg hx]

end

/-! ### The flags and the difference as numbers -/

theorem flagByte_decide (p : Prop) [Decidable p] : flagByte (decide p) = if p then 1 else 0 := by
  by_cases h : p <;> simp [flagByte, h]

theorem carryFlag_eq (a b : Byte) :
    carryFlag a b = if a.toNat + b.toNat > 255 then 1 else 0 := flagByte_decide _

theorem notBorrowFlag_eq (a b : Byte) :
    notBorrowFlag a b = if a.toNat ≥ b.toNat then 1 else 0 := flagByte_decide _

/-- The difference of two bytes is that of their numbers, taken over the integers, modulo 256. -/
theorem toNat_byte_sub (a b : Byte) :
    ((a - b).toNat : Int) = (a.toNat - b.toNat : Int) % 256 := by
  have hb := b.isLt
  rw [BitVec.toNat_sub]
  omega

/-! ### ADD, SUB and SUBN Vx, Vy -/

theorem encodedAs_addReg : EncodedAs 0xF00F 0x8004 (fun w => .addReg (fieldX w) (fieldY w)) :=
  encodedAs_of_group8 (n := 0x4) (fun _ _ => rfl)

theorem encodedAs_sub : EncodedAs 0xF00F 0x8005 (fun w => .sub (fieldX w) (fieldY w)) :=
  encodedAs_of_group8 (n := 0x5) (fun _ _ => rfl)

theorem encodedAs_subn : EncodedAs 0xF00F 0x8007 (fun w => .subn (fieldX w) (fieldY w)) :=
  encodedAs_of_group8 (n := 0x7) (fun _ _ => rfl)

section

variable (x y : Nibble) (s : State)

theorem exec_addReg : exec (.addReg x y) s =
    .next (s.resultThenFlag x (s.getV x + s.getV y) (carryFlag (s.getV x) (s.getV y))) := rfl

theorem exec_sub : exec (.sub x y) s =
    .next (s.resultThenFlag x (s.getV x - s.getV y) (notBorrowFlag (s.getV x) (s.getV y))) := rfl

theorem exec_subn : exec (.subn x y) s =
    .next (s.resultThenFlag x (s.getV y - s.getV x) (notBorrowFlag (s.getV y) (s.getV x))) := rfl

end

/-- Settles O35: the carry is written after the sum, so it is what VF holds even where x is 15. -/
theorem addRegAddsWithCarryOut : Obligations.AddRegAddsWithCarryOut := by
  refine ⟨encodedAs_addReg, fun x y s => ⟨_, exec_addReg x y s, fun hx => ?sum, ?carry,
    fun r => State.resultThenFlag_getV_of_ne _ _ s, onlyV_resultThenFlag _ _ s⟩⟩
  case sum => rw [State.resultThenFlag_getV_same _ _ s hx, BitVec.toNat_add]
  case carry => exact (State.resultThenFlag_getV_vf _ _ s).trans (carryFlag_eq _ _)

/-- The difference of two bytes to Vx, then their not-borrow flag to VF: what SUB and SUBN share,
with the operands in either order (R176, R178). -/
theorem differenceThenNotBorrow (x : Nibble) (a b : Byte) (s : State) {t : State}
    (ht : t = s.resultThenFlag x (a - b) (notBorrowFlag a b)) :
    (x ≠ 0xF → ((t.getV x).toNat : Int) = (a.toNat - b.toNat : Int) % 256) ∧
    (t.getV 0xF = if a.toNat ≥ b.toNat then 1 else 0) ∧
    (∀ r, r ≠ x → r ≠ 0xF → t.getV r = s.getV r) ∧ OnlyV s t := by
  subst ht
  refine ⟨fun hx => ?difference, ?notBorrow, fun r => State.resultThenFlag_getV_of_ne _ _ s,
    onlyV_resultThenFlag _ _ s⟩
  case difference => rw [State.resultThenFlag_getV_same _ _ s hx, toNat_byte_sub]
  case notBorrow => exact (State.resultThenFlag_getV_vf _ _ s).trans (notBorrowFlag_eq a b)

/-- Settles O36: both write a difference, then its not-borrow flag, SUBN with the operands
exchanged. -/
theorem subtractWithNotBorrow : Obligations.SubtractWithNotBorrow :=
  ⟨encodedAs_sub, encodedAs_subn, fun x y s =>
    ⟨⟨_, exec_sub x y s, differenceThenNotBorrow x (s.getV x) (s.getV y) s rfl⟩,
      ⟨_, exec_subn x y s, differenceThenNotBorrow x (s.getV y) (s.getV x) s rfl⟩⟩⟩

end Sys2Proof
end

section
/-! PROOFS. Which words group F decodes to each of its instructions, what a write of IR leaves, and
the two loads of IR, LdILoadsAddress and LdFPointsAtGlyph (45_index.md R190, R192). -/

namespace Sys2Proof

open Sys2Proof.Machine

/-! ### The words of an instruction of group F (R98) -/

/-- Where the sub-selector `k` of group F selects `f x`, the words read as `f` of their x are exactly
those of the row with mask 0xF0FF, group F and `k`. -/
theorem encodedAs_of_groupF {k : Byte} {f : Nibble → Instr}
    (hselect : ∀ x, decodeGroupF x k = some (f x)) :
    EncodedAs 0xF0FF (wordXKK 0xF 0 k) (fun w => f (fieldX w)) := by
  intro w
  refine Iff.trans ⟨fun h => ?_, fun ⟨hgroup, hkk⟩ => ?_⟩ (mask_group_kk_iff w 0xF k).symm
  · have hword : wordXKK 0xF (fieldX w) k = w :=
      (encode_decodeGroupF (hselect _)).symm.trans (encode_of_decodeWord h)
    rw [← hword]
    exact ⟨opcodeGroup_wordXKK .., fieldKK_wordXKK ..⟩
  · rw [decodeWord_groupF hgroup, hkk, hselect]

theorem encodedAs_ldI : EncodedAs 0xF000 0xA000 (fun w => .ldI (fieldNNN w)) :=
  encodedAs_of_group (g := 0xA) (fun _ => decodeWord_groupA) (fun _ => opcodeGroup_wordNNN _ _)

theorem encodedAs_ldF : EncodedAs 0xF0FF 0xF029 (fun w => .ldF (fieldX w)) :=
  encodedAs_of_groupF (k := 0x29) (fun _ => rfl)

/-! ### The write of IR, and the glyph address -/

theorem onlyIr_setIr (s : State) (a : Word) : OnlyIr s (s.setIr a) :=
  ⟨rfl, State.setIr_byteAt s a⟩

/-- The glyph address of R192 fits 16 bits, so it is not reduced. -/
@[simp] theorem glyphAddr_toNat (b : Byte) : (glyphAddr b).toNat = 0x50 + 5 * b.toNat := by
  have hb := b.isLt
  rw [glyphAddr, BitVec.toNat_ofNat, Config.fontBase, Config.glyphStride,
    Nat.mod_eq_of_lt (by omega)]

/-! ### LD I, nnn and LD F, Vx -/

theorem exec_ldI (nnn : Addr) (s : State) : exec (.ldI nnn) s = .next (s.setIr (absAddr nnn)) := rfl

theorem exec_ldF (x : Nibble) (s : State) :
    exec (.ldF x) s = .next (s.setIr (glyphAddr (s.getV x))) := rfl

/-- Settles O38: the step is the write of nnn to IR, and a 12-bit value is at most 0xFFF. -/
theorem ldILoadsAddress : Obligations.LdILoadsAddress := by
  refine ⟨encodedAs_ldI, fun nnn s =>
    ⟨_, exec_ldI nnn s, absAddr_toNat nnn, ?_, onlyIr_setIr s _⟩⟩
  rw [State.setIr_ir, absAddr_toNat]
  exact Nat.le_of_lt_succ nnn.isLt

/-- Settles O40: the step is the write of the glyph address to IR, and a byte is at most 255. -/
theorem ldFPointsAtGlyph : Obligations.LdFPointsAtGlyph := by
  refine ⟨encodedAs_ldF, fun x s =>
    ⟨_, exec_ldF x s, glyphAddr_toNat _, ?_, onlyIr_setIr s _⟩⟩
  have hvx := (s.getV x).isLt
  rw [State.setIr_ir, glyphAddr_toNat]
  omega

end Sys2Proof
end

section
/-! PROOFS. The parts of the state that the instructions with more than one outcome may change, what
the shared operations leave of IR, and OnlyIndexInstructionsWriteIr (45_index.md R193). -/

namespace Sys2Proof

open Sys2Proof.Machine

/-! ### The parts that a return, a call and a key skip may change, faults included -/

theorem exec_ret_frame (s : State) : ∃ k p r f,
    exec .ret s = .next { s with stack := k, pc := p, run := r, finfo := f } := by
  cases h : s.stack with
  | nil => exact ⟨_, _, _, _, execRet_nil s h⟩
  | cons a rest => exact ⟨rest, a, s.run, s.finfo, execRet_cons s h⟩

theorem exec_call_frame (nnn : Addr) (s : State) : ∃ k p r f,
    exec (.call nnn) s = .next { s with stack := k, pc := p, run := r, finfo := f } := by
  obtain h | h := Nat.lt_or_ge s.stack.length 16
  · exact ⟨_, _, _, _, execCall_free s nnn h⟩
  · exact ⟨_, _, _, _, execCall_full s nnn h⟩

/-- A register value is above 15 or the number of a key (R223). -/
theorem out_or_exists_key (b : Byte) : 15 < b.toNat ∨ ∃ k : Nibble, b.toNat = k.toNat := by
  refine (Nat.lt_or_ge 15 b.toNat).imp_right fun h => ⟨b.setWidth 4, ?_⟩
  rw [BitVec.toNat_setWidth, Nat.mod_eq_of_lt (Nat.lt_succ_of_le h)]

theorem exec_skp_frame (x : Nibble) (s : State) : ∃ p r f,
    exec (.skp x) s = .next { s with pc := p, run := r, finfo := f } := by
  obtain h | ⟨k, h⟩ := out_or_exists_key (s.getV x)
  · exact ⟨_, _, _, execSkp_out s h⟩
  · exact ⟨_, _, _, (execSkp_key s h).trans (by rw [State.skipIf_eq]; rfl)⟩

theorem exec_sknp_frame (x : Nibble) (s : State) : ∃ p r f,
    exec (.sknp x) s = .next { s with pc := p, run := r, finfo := f } := by
  obtain h | ⟨k, h⟩ := out_or_exists_key (s.getV x)
  · exact ⟨_, _, _, execSknp_out s h⟩
  · exact ⟨_, _, _, (execSknp_key s h).trans (by rw [State.skipIf_eq]; rfl)⟩

/-! ### The operations that leave IR -/

section

variable (s : State)

@[simp] theorem State.skipIf_ir (c : Bool) : (s.skipIf c).ir = s.ir := by
  rw [State.skipIf_eq, State.setPc_ir]

@[simp] theorem State.draw_snd_ir : s.draw.2.ir = s.ir := by
  rw [State.draw_snd]

@[simp] theorem State.storeBytes_ir (i : Instr) (a : Nat) (xs : List Byte) :
    (State.storeBytes i a xs s).ir = s.ir := by
  obtain ⟨_, _, _, h, -⟩ := State.storeBytes_cases s i a xs
  rw [h]

@[simp] theorem State.loadBytes_ir (i : Instr) (a : Nat) (xs : List Nibble) :
    (State.loadBytes i a xs s).ir = s.ir := by
  obtain ⟨_, _, _, h, -⟩ := State.loadBytes_cases s i a xs
  rw [h]

@[simp] theorem State.drawRows_ir (i : Instr) (base xpos ypos k r : Nat) :
    (State.drawRows i base xpos ypos k r s).ir = s.ir := by
  rw [State.drawRows_frame]

end

/-- Settles O15: the three write IR and nothing else; every other instruction only writes other parts,
or is an operation whose frame, faults included, leaves IR out. -/
theorem onlyIndexInstructionsWriteIr : Obligations.OnlyIndexInstructionsWriteIr := by
  intro i s
  cases i with
  | ldI _ | addI _ | ldF _ => exact ⟨_, rfl, rfl, rfl, State.setIr_byteAt s _, rfl⟩
  | cls | jp _ | jpV0 _ => exact ⟨_, rfl, rfl⟩
  | ldImm _ _ | addImm _ _ | ldReg _ _ | orReg _ _ | andReg _ _ | xorReg _ _ | addReg _ _
  | sub _ _ | shr _ _ | subn _ _ | shl _ _ => exact ⟨_, rfl, rfl⟩
  | ldVxDT _ | ldVxK _ | ldDT _ | ldST _ => exact ⟨_, rfl, rfl⟩
  | seImm _ _ | sneImm _ _ | seReg _ _ _ | sneReg _ _ _ => exact ⟨_, rfl, State.skipIf_ir s _⟩
  | rnd _ _ => exact ⟨_, rfl, State.draw_snd_ir s⟩
  | ldB _ | stRegs _ => exact ⟨_, rfl, State.storeBytes_ir s _ _ _⟩
  | ldRegs _ => exact ⟨_, rfl, State.loadBytes_ir s _ _ _⟩
  | drw _ _ _ => exact ⟨_, rfl, State.drawRows_ir _ _ _ _ _ _ _⟩
  | ret =>
    obtain ⟨_, _, _, _, h⟩ := exec_ret_frame s
    exact ⟨_, h, rfl⟩
  | call nnn =>
    obtain ⟨_, _, _, _, h⟩ := exec_call_frame nnn s
    exact ⟨_, h, rfl⟩
  | skp x =>
    obtain ⟨_, _, _, h⟩ := exec_skp_frame x s
    exact ⟨_, h, rfl⟩
  | sknp x =>
    obtain ⟨_, _, _, h⟩ := exec_sknp_frame x s
    exact ⟨_, h, rfl⟩

end Sys2Proof
end

section
/-! PROOFS. The words of an instruction without operands, what the clearing of the display leaves,
and ClsClearsEveryCell (46_display.md R200). -/

namespace Sys2Proof

open Sys2Proof.Machine

/-! ### The words of an instruction without operands (R95) -/

/-- Where the word `p` decodes to `i`, it is the only word that does, so `i` is read from exactly the
words of the row with mask 0xFFFF and pattern `p`. -/
theorem encodedAs_of_word {p : Word} {i : Instr} (hdecode : decodeWord p = some i) :
    EncodedAs 0xFFFF p (fun _ => i) := by
  intro w
  have hword : decodeWord w = some i ↔ w = p :=
    ⟨fun h => (encode_of_decodeWord h).symm.trans (encode_of_decodeWord hdecode),
      fun h => h ▸ hdecode⟩
  have hmask : w &&& 0xFFFF = w := BitVec.and_allOnes
  rw [hmask, hword]

theorem encodedAs_cls : EncodedAs 0xFFFF 0x00E0 (fun _ => .cls) := encodedAs_of_word (by decide)

/-! ### CLS -/

theorem onlyDisp_clearDisplay (s : State) : OnlyDisp s s.clearDisplay :=
  ⟨rfl, State.clearDisplay_byteAt s⟩

theorem exec_cls (s : State) : exec .cls s = .next s.clearDisplay := rfl

/-- Settles O41: the step is the clearing of the display, after which every cell reads 0; VF is among
the registers that the frame keeps. -/
theorem clsClearsEveryCell : Obligations.ClsClearsEveryCell :=
  ⟨encodedAs_cls, fun s =>
    ⟨_, exec_cls s, fun i _ => State.clearDisplay_pixel s i, onlyDisp_clearDisplay s⟩⟩

end Sys2Proof
end

section
/-! PROOFS. The operations and the instructions that leave DT, DT after a cycle that fetches, and
LdDTSetsDelayTimer (48_timers.md R231). -/

namespace Sys2Proof

open Sys2Proof.Machine

/-! ### The operations that leave DT -/

section

variable (s : State)

@[simp] theorem State.skipIf_dt (c : Bool) : (s.skipIf c).dt = s.dt := by
  rw [State.skipIf_eq, State.setPc_dt]

@[simp] theorem State.draw_snd_dt : s.draw.2.dt = s.dt := by
  rw [State.draw_snd]

@[simp] theorem State.storeBytes_dt (i : Instr) (a : Nat) (xs : List Byte) :
    (State.storeBytes i a xs s).dt = s.dt := by
  obtain ⟨_, _, _, h, -⟩ := State.storeBytes_cases s i a xs
  rw [h]

@[simp] theorem State.loadBytes_dt (i : Instr) (a : Nat) (xs : List Nibble) :
    (State.loadBytes i a xs s).dt = s.dt := by
  obtain ⟨_, _, _, h, -⟩ := State.loadBytes_cases s i a xs
  rw [h]

@[simp] theorem State.drawRows_dt (i : Instr) (base xpos ypos k r : Nat) :
    (State.drawRows i base xpos ypos k r s).dt = s.dt := by
  rw [State.drawRows_frame]

end

/-! ### LD DT, Vx -/

theorem encodedAs_ldDT : EncodedAs 0xF0FF 0xF015 (fun w => .ldDT (fieldX w)) :=
  encodedAs_of_groupF (k := 0x15) (fun _ => rfl)

theorem exec_ldDT (x : Nibble) (s : State) : exec (.ldDT x) s = .next (s.setDt (s.getV x)) := rfl

/-- Every instruction but LD DT, Vx leaves DT, faults included. -/
theorem exec_dt_of_ne_ldDT {i : Instr} (hi : ∀ x, i ≠ .ldDT x) (s : State) :
    ∃ t, exec i s = .next t ∧ t.dt = s.dt := by
  cases i with
  | ldDT x => exact absurd rfl (hi x)
  | cls | jp _ | jpV0 _ | ldI _ | addI _ | ldF _ => exact ⟨_, rfl, rfl⟩
  | ldImm _ _ | addImm _ _ | ldReg _ _ | orReg _ _ | andReg _ _ | xorReg _ _ | addReg _ _
  | sub _ _ | shr _ _ | subn _ _ | shl _ _ => exact ⟨_, rfl, rfl⟩
  | ldVxDT _ | ldVxK _ | ldST _ => exact ⟨_, rfl, rfl⟩
  | seImm _ _ | sneImm _ _ | seReg _ _ _ | sneReg _ _ _ => exact ⟨_, rfl, State.skipIf_dt s _⟩
  | rnd _ _ => exact ⟨_, rfl, State.draw_snd_dt s⟩
  | ldB _ | stRegs _ => exact ⟨_, rfl, State.storeBytes_dt s _ _ _⟩
  | ldRegs _ => exact ⟨_, rfl, State.loadBytes_dt s _ _ _⟩
  | drw _ _ _ => exact ⟨_, rfl, State.drawRows_dt _ _ _ _ _ _ _⟩
  | ret =>
    obtain ⟨_, _, _, _, h⟩ := exec_ret_frame s
    exact ⟨_, h, rfl⟩
  | call nnn =>
    obtain ⟨_, _, _, _, h⟩ := exec_call_frame nnn s
    exact ⟨_, h, rfl⟩
  | skp x =>
    obtain ⟨_, _, _, h⟩ := exec_skp_frame x s
    exact ⟨_, h, rfl⟩
  | sknp x =>
    obtain ⟨_, _, _, h⟩ := exec_sknp_frame x s
    exact ⟨_, h, rfl⟩

/-! ### DT after a cycle that fetches (R123, R231) -/

section

variable {s : State} {w : Word}

/-- A running cycle whose word decodes to `i` is `i` on the advanced and ticked state (R125). -/
theorem cycle_exec {i : Instr} (hrun : s.run = .running) (hfetch : s.fetch = .inl w)
    (hdecode : decodeWord w = some i) : cycle s = exec i s.ready :=
  (cycle_running s hrun).trans (runningCycle_exec s hfetch hdecode)

theorem cycle_ldDT {x : Nibble} (hrun : s.run = .running) (hfetch : s.fetch = .inl w)
    (hdecode : decodeWord w = some (.ldDT x)) : cycle s = .next (s.ready.setDt (s.getV x)) :=
  cycle_exec hrun hfetch hdecode

/-- Where the word does not set DT, undefined or not, the tick is all that happens to it. -/
theorem cycle_dt_of_ne_ldDT (hrun : s.run = .running) (hfetch : s.fetch = .inl w)
    (hw : ∀ x, decodeWord w ≠ some (.ldDT x)) :
    ∃ t, cycle s = .next t ∧ t.dt = tickTimer s.dt := by
  cases hdecode : decodeWord w with
  | none =>
    exact ⟨_, (cycle_running s hrun).trans (runningCycle_undefined s hfetch hdecode), rfl⟩
  | some i =>
    have hi : ∀ x, i ≠ .ldDT x := fun x h => hw x (hdecode.trans (congrArg some h))
    rw [cycle_exec hrun hfetch hdecode]
    exact exec_dt_of_ne_ldDT hi s.ready

end

/-- Settles O48: the write comes after the tick of its own cycle and leaves the core Running, so the
first tick of the new value is that of the next cycle. -/
theorem ldDTSetsDelayTimer : Obligations.LdDTSetsDelayTimer := by
  refine ⟨encodedAs_ldDT, fun x s => ⟨_, exec_ldDT x s, rfl, State.setDt_byteAt s _⟩,
    fun x s w hrun hfetch hdecode =>
      ⟨_, cycle_ldDT hrun hfetch hdecode, State.setDt_dt _ _, fun w' hfetch' hw' => ?next⟩⟩
  case next =>
    obtain ⟨u, hcycle, hdt⟩ := cycle_dt_of_ne_ldDT (s := s.ready.setDt (s.getV x)) hrun hfetch' hw'
    exact ⟨u, hcycle, by rw [hdt, tickTimer_toNat, State.setDt_dt]⟩

end Sys2Proof
end

section
/-! PROOFS. The parts of the state that no instruction writes, and KeyReleaseIsTheHosts
(50_host_interface.md R257). -/

namespace Sys2Proof

open Sys2Proof.Machine

/-! ### The parts that no instruction writes -/

/-- `t` holds what `s` holds in the parts that no instruction writes: the key flags (R257), the
parameter FONT (R5), the host's script (R251) and the permission to load (R254). -/
def SameHostParts (s t : State) : Prop :=
  t = { t with key := s.key, font := s.font, script := s.script, loadOpen := s.loadOpen }

theorem SameHostParts.key_eq {s t : State} (h : SameHostParts s t) : t.key = s.key := by
  rw [SameHostParts] at h
  rw [h]

section

variable (s : State)

theorem sameHostParts_skipIf (c : Bool) : SameHostParts s (s.skipIf c) := by
  rw [State.skipIf_eq]
  rfl

theorem sameHostParts_draw_snd_setV (x : Nibble) (b : Byte) :
    SameHostParts s (s.draw.2.setV x b) := by
  rw [State.draw_snd]
  rfl

theorem sameHostParts_storeBytes (i : Instr) (a : Nat) (xs : List Byte) :
    SameHostParts s (State.storeBytes i a xs s) := by
  obtain ⟨_, _, _, h, -⟩ := State.storeBytes_cases s i a xs
  rw [h]
  rfl

theorem sameHostParts_loadBytes (i : Instr) (a : Nat) (xs : List Nibble) :
    SameHostParts s (State.loadBytes i a xs s) := by
  obtain ⟨_, _, _, h, -⟩ := State.loadBytes_cases s i a xs
  rw [h]
  rfl

theorem sameHostParts_drawRows (i : Instr) (base xpos ypos k r : Nat) :
    SameHostParts s (State.drawRows i base xpos ypos k r s) := by
  rw [State.drawRows_frame]
  rfl

/-- Every instruction answers a next state and keeps those parts, faults included. -/
theorem exec_sameHostParts (i : Instr) : ∃ t, exec i s = .next t ∧ SameHostParts s t := by
  cases i with
  | cls | jp _ | jpV0 _ | ldI _ | addI _ | ldF _ => exact ⟨_, rfl, rfl⟩
  | ldImm _ _ | addImm _ _ | ldReg _ _ | orReg _ _ | andReg _ _ | xorReg _ _ | addReg _ _
  | sub _ _ | shr _ _ | subn _ _ | shl _ _ => exact ⟨_, rfl, rfl⟩
  | ldVxDT _ | ldVxK _ | ldDT _ | ldST _ => exact ⟨_, rfl, rfl⟩
  | seImm _ _ | sneImm _ _ | seReg _ _ _ | sneReg _ _ _ => exact ⟨_, rfl, sameHostParts_skipIf s _⟩
  | rnd _ _ => exact ⟨_, rfl, sameHostParts_draw_snd_setV s _ _⟩
  | ldB _ | stRegs _ => exact ⟨_, rfl, sameHostParts_storeBytes s _ _ _⟩
  | ldRegs _ => exact ⟨_, rfl, sameHostParts_loadBytes s _ _ _⟩
  | drw _ _ _ => exact ⟨_, rfl, sameHostParts_drawRows (s.setV vf 0) _ _ _ _ _ _⟩
  | ret =>
    obtain ⟨_, _, _, _, h⟩ := exec_ret_frame s
    exact ⟨_, h, rfl⟩
  | call nnn =>
    obtain ⟨_, _, _, _, h⟩ := exec_call_frame nnn s
    exact ⟨_, h, rfl⟩
  | skp x =>
    obtain ⟨_, _, _, h⟩ := exec_skp_frame x s
    exact ⟨_, h, rfl⟩
  | sknp x =>
    obtain ⟨_, _, _, h⟩ := exec_sknp_frame x s
    exact ⟨_, h, rfl⟩

/-! ### The key flags after an instruction, a cycle and the host's releases -/

theorem exec_key (i : Instr) : ∃ t, exec i s = .next t ∧ t.key = s.key := by
  obtain ⟨t, hexec, hparts⟩ := exec_sameHostParts s i
  exact ⟨t, hexec, hparts.key_eq⟩

/-- A cycle answers a next state with the same key flags, whatever RUN is and whatever the fetch and
the decoder answer (R125 to R128). -/
theorem cycle_key : ∃ t, cycle s = .next t ∧ t.key = s.key := by
  cases hrun : s.run with
  | awaitingKey x => exact ⟨_, cycle_awaiting s hrun, rfl⟩
  | faulted kind => exact ⟨_, cycle_faulted s hrun, rfl⟩
  | running =>
    cases hfetch : s.fetch with
    | inr a => exact ⟨_, (cycle_running s hrun).trans (runningCycle_fetchFault s hfetch), rfl⟩
    | inl w =>
      cases hdecode : decodeWord w with
      | none =>
        exact ⟨_, (cycle_running s hrun).trans (runningCycle_undefined s hfetch hdecode), rfl⟩
      | some i =>
        rw [cycle_exec hrun hfetch hdecode]
        exact exec_key s.ready i

@[simp] theorem clearKeys_keyAt (j : Nibble) : (clearKeys s).keyAt j = false :=
  Vector.getElem_replicate j.isLt

end

/-- Settles O60: a release writes flags alone, RUN among the parts it keeps, and neither an
instruction nor a cycle writes any. -/
theorem keyReleaseIsTheHosts : Obligations.KeyReleaseIsTheHosts :=
  ⟨fun k s => ⟨_, rfl, fun j => State.keyAt_setKey s k j false, rfl⟩,
    fun s => ⟨_, rfl, clearKeys_keyAt s, rfl⟩,
    fun i s => exec_key s i,
    cycle_key⟩

end Sys2Proof
end

section
/-! PROOFS. What the parts of the state that hold more than one value read as at power-on, and
PowerOnValues (70_reset_and_hazards.md R321). -/

namespace Sys2Proof

open Sys2Proof.Machine

/-! ### The readers at power-on -/

@[simp] theorem reset_getV (r : Nibble) : State.reset.getV r = 0 :=
  Vector.getElem_replicate r.isLt

@[simp] theorem reset_pixel (i : Nat) : State.reset.pixel i = false :=
  have hclear : State.reset.clearDisplay = State.reset := rfl
  hclear ▸ State.clearDisplay_pixel State.reset i

@[simp] theorem reset_keyAt (k : Nibble) : State.reset.keyAt k = false :=
  have hclear : clearKeys State.reset = State.reset := rfl
  hclear ▸ clearKeys_keyAt State.reset k

/-- At power-on no byte is listed, so every address reads as an unlisted one, whatever the FONT. -/
theorem reset_byteAt (font : Config.Font) (a : Nat) :
    ({ State.reset with font := font } : State).byteAt a = Memory.unlisted font a := rfl

/-- Settles O56: the registers, the cells and the keys read as at power-on, an unlisted address reads
as FONT or zero, and the other items are the fields of the power-on state itself. -/
theorem powerOnValues : Obligations.PowerOnValues :=
  ⟨reset_getV, rfl, rfl, rfl, reset_pixel, reset_keyAt, rfl, rfl, rfl,
    fun font a => (reset_byteAt font a).trans (Memory.unlisted_eq font a)⟩

end Sys2Proof
end

section
/-! PROOFS. The words of every instruction (30_encoding.md R92, R94), the round trips of the decoder
and the encoder, the opcode map, and the words of groups 0, 5 and 9. -/

namespace Sys2Proof

open Sys2Proof.Machine

/-! ### The words of the instructions that have no such lemma yet -/

/-- Where the sub-selector `k` of group E selects `f x`, the words read as `f` of their x are exactly
those of the row with mask 0xF0FF, group E and `k`. -/
theorem encodedAs_of_groupE {k : Byte} {f : Nibble → Instr}
    (hselect : ∀ x, decodeGroupE x k = some (f x)) :
    EncodedAs 0xF0FF (wordXKK 0xE 0 k) (fun w => f (fieldX w)) := by
  intro w
  refine Iff.trans ⟨fun h => ?_, fun ⟨hgroup, hkk⟩ => ?_⟩ (mask_group_kk_iff w 0xE k).symm
  · have hword : wordXKK 0xE (fieldX w) k = w :=
      (encode_decodeGroupE (hselect _)).symm.trans (encode_of_decodeWord h)
    rw [← hword]
    exact ⟨opcodeGroup_wordXKK .., fieldKK_wordXKK ..⟩
  · rw [decodeWord_groupE hgroup, hkk, hselect]

theorem encodedAs_ret : EncodedAs 0xFFFF 0x00EE (fun _ => .ret) := encodedAs_of_word (by decide)

theorem encodedAs_call : EncodedAs 0xF000 0x2000 (fun w => .call (fieldNNN w)) :=
  encodedAs_of_group (g := 0x2) (fun _ => decodeWord_group2) (fun _ => opcodeGroup_wordNNN _ _)

theorem encodedAs_seReg :
    EncodedAs 0xF000 0x5000 (fun w => .seReg (fieldX w) (fieldY w) (fieldN w)) :=
  encodedAs_of_group (g := 0x5) (fun _ => decodeWord_group5) (fun _ => opcodeGroup_wordXYN _ _ _ _)

theorem encodedAs_shr : EncodedAs 0xF00F 0x8006 (fun w => .shr (fieldX w) (fieldY w)) :=
  encodedAs_of_group8 (n := 0x6) (fun _ _ => rfl)

theorem encodedAs_shl : EncodedAs 0xF00F 0x800E (fun w => .shl (fieldX w) (fieldY w)) :=
  encodedAs_of_group8 (n := 0xE) (fun _ _ => rfl)

theorem encodedAs_sneReg :
    EncodedAs 0xF000 0x9000 (fun w => .sneReg (fieldX w) (fieldY w) (fieldN w)) :=
  encodedAs_of_group (g := 0x9) (fun _ => decodeWord_group9) (fun _ => opcodeGroup_wordXYN _ _ _ _)

theorem encodedAs_rnd : EncodedAs 0xF000 0xC000 (fun w => .rnd (fieldX w) (fieldKK w)) :=
  encodedAs_of_group (g := 0xC) (fun _ => decodeWord_groupC) (fun _ => opcodeGroup_wordXKK _ _ _)

theorem encodedAs_drw : EncodedAs 0xF000 0xD000 (fun w => .drw (fieldX w) (fieldY w) (fieldN w)) :=
  encodedAs_of_group (g := 0xD) (fun _ => decodeWord_groupD) (fun _ => opcodeGroup_wordXYN _ _ _ _)

theorem encodedAs_skp : EncodedAs 0xF0FF 0xE09E (fun w => .skp (fieldX w)) :=
  encodedAs_of_groupE (k := 0x9E) (fun _ => rfl)

theorem encodedAs_sknp : EncodedAs 0xF0FF 0xE0A1 (fun w => .sknp (fieldX w)) :=
  encodedAs_of_groupE (k := 0xA1) (fun _ => rfl)

theorem encodedAs_ldVxDT : EncodedAs 0xF0FF 0xF007 (fun w => .ldVxDT (fieldX w)) :=
  encodedAs_of_groupF (k := 0x07) (fun _ => rfl)

theorem encodedAs_ldVxK : EncodedAs 0xF0FF 0xF00A (fun w => .ldVxK (fieldX w)) :=
  encodedAs_of_groupF (k := 0x0A) (fun _ => rfl)

theorem encodedAs_ldST : EncodedAs 0xF0FF 0xF018 (fun w => .ldST (fieldX w)) :=
  encodedAs_of_groupF (k := 0x18) (fun _ => rfl)

theorem encodedAs_addI : EncodedAs 0xF0FF 0xF01E (fun w => .addI (fieldX w)) :=
  encodedAs_of_groupF (k := 0x1E) (fun _ => rfl)

theorem encodedAs_ldB : EncodedAs 0xF0FF 0xF033 (fun w => .ldB (fieldX w)) :=
  encodedAs_of_groupF (k := 0x33) (fun _ => rfl)

theorem encodedAs_stRegs : EncodedAs 0xF0FF 0xF055 (fun w => .stRegs (fieldX w)) :=
  encodedAs_of_groupF (k := 0x55) (fun _ => rfl)

theorem encodedAs_ldRegs : EncodedAs 0xF0FF 0xF065 (fun w => .ldRegs (fieldX w)) :=
  encodedAs_of_groupF (k := 0x65) (fun _ => rfl)

/-! ### The round trips (R90, R92, R94) -/

/-- By the instruction's group: the fields of an assembled word are the operands it was made of, and
a sub-selector selects the instruction it was taken from. -/
theorem decodeWord_encode (i : Instr) : decodeWord (encode i) = some i := by
  cases i with
  | cls | ret => decide
  | jp _ => simp [encode, decodeWord_group1]
  | call _ => simp [encode, decodeWord_group2]
  | seImm _ _ => simp [encode, decodeWord_group3]
  | sneImm _ _ => simp [encode, decodeWord_group4]
  | seReg _ _ _ => simp [encode, decodeWord_group5]
  | ldImm _ _ => simp [encode, decodeWord_group6]
  | addImm _ _ => simp [encode, decodeWord_group7]
  | ldReg _ _ | orReg _ _ | andReg _ _ | xorReg _ _ | addReg _ _ | sub _ _ | shr _ _ | subn _ _
  | shl _ _ => exact decodeWord_wordXYN_8 _ _ _
  | sneReg _ _ _ => simp [encode, decodeWord_group9]
  | ldI _ => simp [encode, decodeWord_groupA]
  | jpV0 _ => simp [encode, decodeWord_groupB]
  | rnd _ _ => simp [encode, decodeWord_groupC]
  | drw _ _ _ => simp [encode, decodeWord_groupD]
  | skp _ | sknp _ => exact decodeWord_wordXKK_E _ _
  | ldVxDT _ | ldVxK _ | ldDT _ | ldST _ | addI _ | ldF _ | ldB _ | stRegs _ | ldRegs _ =>
    exact decodeWord_wordXKK_F _ _

theorem decode_wordBytes (w : Word) {i : Instr} (hdecode : decodeWord w = some i)
    (rest : List Byte) : decode (wordBytes w ++ rest) = .instr i rest := by
  rw [wordBytes, List.cons_append, List.cons_append, List.nil_append, decode, joinBytes_wordBytes,
    hdecode]

/-- Settles O2: a word's bytes join to the word again, and the decoder undoes the encoder on it. -/
theorem decodeOfEncodeIsTheInstruction : Obligations.DecodeOfEncodeIsTheInstruction := fun i =>
  ⟨decodeWord_encode i, decode_wordBytes (encode i) (decodeWord_encode i)⟩

/-- Settles O3, by the group of the word: each constructor keeps every bit its row leaves open. -/
theorem encodeOfDecodeIsTheWord : Obligations.EncodeOfDecodeIsTheWord := fun _ _ =>
  encode_of_decodeWord

/-! ### The opcode map (R94) -/

theorem rowMatches (i : Instr) : Laws.RowMatches.Statement i := by
  cases i with
  | cls => exact Laws.RowMatches.cls
  | ret => exact Laws.RowMatches.ret
  | jp _ => exact Laws.RowMatches.jp _
  | call _ => exact Laws.RowMatches.call _
  | seImm _ _ => exact Laws.RowMatches.seImm _ _
  | sneImm _ _ => exact Laws.RowMatches.sneImm _ _
  | seReg _ _ _ => exact Laws.RowMatches.seReg _ _ _
  | ldImm _ _ => exact Laws.RowMatches.ldImm _ _
  | addImm _ _ => exact Laws.RowMatches.addImm _ _
  | ldReg _ _ => exact Laws.RowMatches.ldReg _ _
  | orReg _ _ => exact Laws.RowMatches.orReg _ _
  | andReg _ _ => exact Laws.RowMatches.andReg _ _
  | xorReg _ _ => exact Laws.RowMatches.xorReg _ _
  | addReg _ _ => exact Laws.RowMatches.addReg _ _
  | sub _ _ => exact Laws.RowMatches.sub _ _
  | shr _ _ => exact Laws.RowMatches.shr _ _
  | subn _ _ => exact Laws.RowMatches.subn _ _
  | shl _ _ => exact Laws.RowMatches.shl _ _
  | sneReg _ _ _ => exact Laws.RowMatches.sneReg _ _ _
  | ldI _ => exact Laws.RowMatches.ldI _
  | jpV0 _ => exact Laws.RowMatches.jpV0 _
  | rnd _ _ => exact Laws.RowMatches.rnd _ _
  | drw _ _ _ => exact Laws.RowMatches.drw _ _ _
  | skp _ => exact Laws.RowMatches.skp _
  | sknp _ => exact Laws.RowMatches.sknp _
  | ldVxDT _ => exact Laws.RowMatches.ldVxDT _
  | ldVxK _ => exact Laws.RowMatches.ldVxK _
  | ldDT _ => exact Laws.RowMatches.ldDT _
  | ldST _ => exact Laws.RowMatches.ldST _
  | addI _ => exact Laws.RowMatches.addI _
  | ldF _ => exact Laws.RowMatches.ldF _
  | ldB _ => exact Laws.RowMatches.ldB _
  | stRegs _ => exact Laws.RowMatches.stRegs _
  | ldRegs _ => exact Laws.RowMatches.ldRegs _

/-- The words of a row all decode, each to an instruction of that row. -/
theorem exists_encodedAs_row (i : Instr) : ∃ f : Word → Instr,
    EncodedAs (tableRow i).mask (tableRow i).pattern f ∧ ∀ w, tableRow (f w) = tableRow i := by
  cases i with
  | cls => exact ⟨_, encodedAs_cls, fun _ => rfl⟩
  | ret => exact ⟨_, encodedAs_ret, fun _ => rfl⟩
  | jp _ => exact ⟨_, encodedAs_jp, fun _ => rfl⟩
  | call _ => exact ⟨_, encodedAs_call, fun _ => rfl⟩
  | seImm _ _ => exact ⟨_, encodedAs_seImm, fun _ => rfl⟩
  | sneImm _ _ => exact ⟨_, encodedAs_sneImm, fun _ => rfl⟩
  | seReg _ _ _ => exact ⟨_, encodedAs_seReg, fun _ => rfl⟩
  | ldImm _ _ => exact ⟨_, encodedAs_ldImm, fun _ => rfl⟩
  | addImm _ _ => exact ⟨_, encodedAs_addImm, fun _ => rfl⟩
  | ldReg _ _ => exact ⟨_, encodedAs_ldReg, fun _ => rfl⟩
  | orReg _ _ => exact ⟨_, encodedAs_orReg, fun _ => rfl⟩
  | andReg _ _ => exact ⟨_, encodedAs_andReg, fun _ => rfl⟩
  | xorReg _ _ => exact ⟨_, encodedAs_xorReg, fun _ => rfl⟩
  | addReg _ _ => exact ⟨_, encodedAs_addReg, fun _ => rfl⟩
  | sub _ _ => exact ⟨_, encodedAs_sub, fun _ => rfl⟩
  | shr _ _ => exact ⟨_, encodedAs_shr, fun _ => rfl⟩
  | subn _ _ => exact ⟨_, encodedAs_subn, fun _ => rfl⟩
  | shl _ _ => exact ⟨_, encodedAs_shl, fun _ => rfl⟩
  | sneReg _ _ _ => exact ⟨_, encodedAs_sneReg, fun _ => rfl⟩
  | ldI _ => exact ⟨_, encodedAs_ldI, fun _ => rfl⟩
  | jpV0 _ => exact ⟨_, encodedAs_jpV0, fun _ => rfl⟩
  | rnd _ _ => exact ⟨_, encodedAs_rnd, fun _ => rfl⟩
  | drw _ _ _ => exact ⟨_, encodedAs_drw, fun _ => rfl⟩
  | skp _ => exact ⟨_, encodedAs_skp, fun _ => rfl⟩
  | sknp _ => exact ⟨_, encodedAs_sknp, fun _ => rfl⟩
  | ldVxDT _ => exact ⟨_, encodedAs_ldVxDT, fun _ => rfl⟩
  | ldVxK _ => exact ⟨_, encodedAs_ldVxK, fun _ => rfl⟩
  | ldDT _ => exact ⟨_, encodedAs_ldDT, fun _ => rfl⟩
  | ldST _ => exact ⟨_, encodedAs_ldST, fun _ => rfl⟩
  | addI _ => exact ⟨_, encodedAs_addI, fun _ => rfl⟩
  | ldF _ => exact ⟨_, encodedAs_ldF, fun _ => rfl⟩
  | ldB _ => exact ⟨_, encodedAs_ldB, fun _ => rfl⟩
  | stRegs _ => exact ⟨_, encodedAs_stRegs, fun _ => rfl⟩
  | ldRegs _ => exact ⟨_, encodedAs_ldRegs, fun _ => rfl⟩

theorem exists_decodeWord_of_matches {r : Row} (hr : r ∈ opcodeRows) {w : Word}
    (hmatches : r.matches w = true) : ∃ i, decodeWord w = some i ∧ tableRow i = r := by
  obtain ⟨j, -, rfl⟩ := List.mem_map.1 hr
  obtain ⟨f, hencoded, hrow⟩ := exists_encodedAs_row j
  exact ⟨f w, (hencoded w).2 (beq_iff_eq.1 hmatches), hrow w⟩

/-- Settles O4: a decoded word is its instruction's encoding, which lies in its row; and the words of
a row decode to an instruction of that row, so a word of two rows makes them one. -/
theorem decoderIsTheOpcodeMap : Obligations.DecoderIsTheOpcodeMap := by
  refine ⟨fun w i hdecode => ?row, fun w ⟨r, hr, hmatches⟩ => ?decodes,
    fun w r hr r' hr' hmatches hmatches' => ?once⟩
  case row => exact encode_of_decodeWord hdecode ▸ (rowMatches i).1
  case decodes =>
    obtain ⟨i, hdecode, -⟩ := exists_decodeWord_of_matches hr hmatches
    exact ⟨i, hdecode⟩
  case once =>
    obtain ⟨i, hdecode, rfl⟩ := exists_decodeWord_of_matches hr hmatches
    obtain ⟨j, hdecode', rfl⟩ := exists_decodeWord_of_matches hr' hmatches'
    cases hdecode.symm.trans hdecode'
    rfl

/-- Settles O1, by running the decoder on the bytes of each of the seventeen words. -/
theorem sampleWordsDecode : Obligations.SampleWordsDecode := by
  unfold Obligations.SampleWordsDecode
  decide

/-! ### Groups 0, 5 and 9 (D2, D3) -/

theorem wordNNN_inj {g : Nibble} {a b : Addr} : wordNNN g a = wordNNN g b ↔ a = b :=
  ⟨fun h => by simpa using congrArg fieldNNN h, congrArg _⟩

theorem decodeWord_wordNNN_0 (a : Addr) : decodeWord (wordNNN 0x0 a) =
    if a = 0x0E0 then some .cls else if a = 0x0EE then some .ret else none := by
  have hcls : wordNNN 0x0 a = 0x00E0 ↔ a = 0x0E0 := wordNNN_inj (b := 0x0E0)
  have hret : wordNNN 0x0 a = 0x00EE ↔ a = 0x0EE := wordNNN_inj (b := 0x0EE)
  simp only [decodeWord_group0 (opcodeGroup_wordNNN ..), decodeGroup0, hcls, hret]

/-- 5xyN does not use n (R99). -/
theorem exec_seReg_ignores_n (x y n n' : Nibble) (s : State) :
    exec (.seReg x y n) s = exec (.seReg x y n') s := rfl

/-- 9xyN does not use n (R99). -/
theorem exec_sneReg_ignores_n (x y n n' : Nibble) (s : State) :
    exec (.sneReg x y n) s = exec (.sneReg x y n') s := rfl

/-- Settles O8: in group 0 the twelve other bits must be those of one of two words; groups 5 and 9
decode every word to an instruction whose meaning leaves n out. -/
theorem groups0And5And9Decode : Obligations.Groups0And5And9Decode :=
  ⟨decodeWord_wordNNN_0,
    fun x y n => ⟨decodeWord_encode (.seReg x y n), decodeWord_encode (.sneReg x y n)⟩,
    fun x y n n' s => ⟨exec_seReg_ignores_n x y n n' s, exec_sneReg_ignores_n x y n n' s⟩⟩

end Sys2Proof
end

section
/-! PROOFS. What each instruction may change and what becomes of RUN and FINFO, said once for all 34,
and from it the rules about the whole machine (10_state.md, 40_cycle.md, 60_exceptions.md 1). -/

namespace Sys2Proof

open Sys2Proof.Machine

/-! ### What an instruction can do -/

/-- `t` differs from `s` at most in the parts that instruction i may change, where it faults too. -/
def MayChange (i : Instr) (s t : State) : Prop :=
  match i with
  | .cls => t = { s with disp := t.disp }
  | .ret | .call _ =>
    t = { s with stack := t.stack, pc := t.pc, run := t.run, finfo := t.finfo }
  | .jp _ | .jpV0 _ | .seImm _ _ | .sneImm _ _ | .seReg _ _ _ | .sneReg _ _ _ =>
    t = { s with pc := t.pc }
  | .skp _ | .sknp _ => t = { s with pc := t.pc, run := t.run, finfo := t.finfo }
  | .ldImm _ _ | .addImm _ _ | .ldReg _ _ | .orReg _ _ | .andReg _ _ | .xorReg _ _ | .addReg _ _
  | .sub _ _ | .shr _ _ | .subn _ _ | .shl _ _ | .ldVxDT _ => t = { s with v := t.v }
  | .ldI _ | .addI _ | .ldF _ => t = { s with ir := t.ir }
  | .rnd _ _ => t = { s with v := t.v, draws := t.draws, drawCount := t.drawCount }
  | .drw _ _ _ => t = { s with disp := t.disp, v := t.v, run := t.run, finfo := t.finfo }
  | .ldVxK _ => t = { s with run := t.run }
  | .ldDT _ => t = { s with dt := t.dt }
  | .ldST _ => t = { s with st := t.st }
  | .ldB _ | .stRegs _ => t = { s with mem := t.mem, run := t.run, finfo := t.finfo }
  | .ldRegs _ => t = { s with v := t.v, run := t.run, finfo := t.finfo }

/-- The kind of error an instruction can raise, none where it raises nothing (R280). -/
def faultKind : Instr → Option ErrorKind
  | .ret => some .stackUnderflow
  | .call _ => some .stackOverflow
  | .skp _ | .sknp _ => some .keyIndexOutOfRange
  | .drw _ _ _ | .ldB _ | .stRegs _ | .ldRegs _ => some .addressOutOfBounds
  | _ => none

/-- What instruction i, executed from `s`, leaves in RUN and FINFO: both as they were, the wait of an
Fx0A, or a raise of its kind whose record fits wherever the cycle can have fetched from (R280). -/
inductive RunAfter (i : Instr) (s t : State) : Prop
  | kept (hrun : t.run = s.run) (hfinfo : t.finfo = s.finfo)
  | waits (x : Nibble) (hi : i = .ldVxK x) (hrun : t.run = .awaitingKey x)
      (hfinfo : t.finfo = s.finfo)
  | raised (kind : ErrorKind) (addr : Option Nat) (hkind : faultKind i = some kind)
      (hfits : ∀ p : Word, p.toNat ≤ 0xFFE → FaultInfo.fits kind ⟨p, some (encode i), addr⟩ = true)
      (hrun : t.run = .faulted kind) (hfinfo : t.finfo = some ⟨s.pc - 2, some (encode i), addr⟩)

theorem fits_address {p w : Word} {a : Nat} (hp : p.toNat ≤ 0xFFE) (ha : Config.memTop < a) :
    FaultInfo.fits .addressOutOfBounds ⟨p, some w, some a⟩ = true := by
  have hp' : p.toNat + 1 ≤ Config.memTop := Nat.succ_le_succ hp
  simp [FaultInfo.fits, hp', ha]

theorem fits_keyIndex {p w : Word} {b : Byte} (hb : 15 < b.toNat) :
    FaultInfo.fits .keyIndexOutOfRange ⟨p, some w, some b.toNat⟩ = true := by
  have hlt : b.toNat < 256 := b.isLt
  simp [FaultInfo.fits, hb, hlt]

theorem runAfter_of_raisedOrNot {i : Instr} {s t : State}
    (hkind : faultKind i = some .addressOutOfBounds) (h : RaisedOrNot i s t) : RunAfter i s t := by
  obtain ⟨hrun, hfinfo⟩ | ⟨hrun, a, ha, hfinfo⟩ := h
  · exact .kept hrun hfinfo
  · exact .raised _ _ hkind (fun _ hp => fits_address hp ha) hrun hfinfo

section

variable (s : State)

@[simp] theorem State.skipIf_run (c : Bool) : (s.skipIf c).run = s.run := by
  rw [State.skipIf_eq, State.setPc_run]

@[simp] theorem State.skipIf_finfo (c : Bool) : (s.skipIf c).finfo = s.finfo := by
  rw [State.skipIf_eq, State.setPc_finfo]

theorem State.skipIf_eq_withPc (c : Bool) : s.skipIf c = { s with pc := (s.skipIf c).pc } :=
  (onlyPc_skipIf c s).1

/-- Every instruction answers a next state. -/
theorem exec_next (i : Instr) :
    ∃ t, exec i s = .next t ∧ MayChange i s t ∧ RunAfter i s t := by
  cases i with
  | cls | jp _ | jpV0 _ | ldI _ | addI _ | ldF _ => exact ⟨_, rfl, rfl, .kept rfl rfl⟩
  | ldImm _ _ | addImm _ _ | ldReg _ _ | orReg _ _ | andReg _ _ | xorReg _ _ | addReg _ _
  | sub _ _ | shr _ _ | subn _ _ | shl _ _ => exact ⟨_, rfl, rfl, .kept rfl rfl⟩
  | ldVxDT _ | ldDT _ | ldST _ => exact ⟨_, rfl, rfl, .kept rfl rfl⟩
  | ldVxK x => exact ⟨_, rfl, rfl, .waits x rfl rfl rfl⟩
  | seImm _ _ | sneImm _ _ | seReg _ _ _ | sneReg _ _ _ =>
    exact ⟨_, rfl, State.skipIf_eq_withPc s _, .kept (State.skipIf_run s _) (State.skipIf_finfo s _)⟩
  | rnd x kk =>
    refine ⟨_, rfl, ?_⟩
    rw [State.draw_snd]
    exact ⟨rfl, .kept rfl rfl⟩
  | ldB _ | stRegs _ =>
    obtain ⟨_, _, _, hstore, hraised⟩ := State.storeBytes_cases s _ _ _
    exact ⟨_, rfl, by rw [MayChange, hstore], runAfter_of_raisedOrNot rfl hraised⟩
  | ldRegs _ =>
    obtain ⟨_, _, _, hload, hraised⟩ := State.loadBytes_cases s _ _ _
    exact ⟨_, rfl, by rw [MayChange, hload], runAfter_of_raisedOrNot rfl hraised⟩
  | drw _ _ _ =>
    exact ⟨_, rfl, State.drawRows_frame (s.setV vf 0) _ _ _ _ _ _,
      runAfter_of_raisedOrNot rfl (State.drawRows_cases (s.setV vf 0) _ _ _ _ _ _)⟩
  | ret =>
    cases h : s.stack with
    | nil => exact ⟨_, execRet_nil s h, rfl, .raised _ _ rfl (fun _ _ => rfl) rfl rfl⟩
    | cons _ _ => exact ⟨_, execRet_cons s h, rfl, .kept rfl rfl⟩
  | call nnn =>
    obtain h | h := Nat.lt_or_ge s.stack.length 16
    · exact ⟨_, execCall_free s nnn h, rfl, .kept rfl rfl⟩
    · exact ⟨_, execCall_full s nnn h, rfl, .raised _ _ rfl (fun _ _ => rfl) rfl rfl⟩
  | skp x =>
    obtain h | ⟨k, h⟩ := out_or_exists_key (s.getV x)
    · exact ⟨_, execSkp_out s h, rfl, .raised _ _ rfl (fun _ _ => fits_keyIndex h) rfl rfl⟩
    · exact ⟨_, execSkp_key s h, by rw [State.skipIf_eq]; rfl,
        .kept (State.skipIf_run s _) (State.skipIf_finfo s _)⟩
  | sknp x =>
    obtain h | ⟨k, h⟩ := out_or_exists_key (s.getV x)
    · exact ⟨_, execSknp_out s h, rfl, .raised _ _ rfl (fun _ _ => fits_keyIndex h) rfl rfl⟩
    · exact ⟨_, execSknp_key s h, by rw [State.skipIf_eq]; rfl,
        .kept (State.skipIf_run s _) (State.skipIf_finfo s _)⟩

end

section

variable {i : Instr} {s t : State}

theorem mayChange_of_exec (h : exec i s = .next t) : MayChange i s t := by
  obtain ⟨_, hexec, hframe, -⟩ := exec_next s i
  cases h.symm.trans hexec
  exact hframe

theorem runAfter_of_exec (h : exec i s = .next t) : RunAfter i s t := by
  obtain ⟨_, hexec, -, hrun⟩ := exec_next s i
  cases h.symm.trans hexec
  exact hrun

/-! ### The parts that all but one or two instructions keep -/

theorem MayChange.font_eq (h : MayChange i s t) : t.font = s.font := by
  cases i with | _ => exact (congrArg State.font h :)

theorem MayChange.loadOpen_eq (h : MayChange i s t) : t.loadOpen = s.loadOpen := by
  cases i with | _ => exact (congrArg State.loadOpen h :)

theorem MayChange.dt_eq (h : MayChange i s t) (hi : ∀ x, i ≠ .ldDT x) : t.dt = s.dt := by
  cases i with
  | ldDT x => exact absurd rfl (hi x)
  | _ => exact (congrArg State.dt h :)

theorem MayChange.st_eq (h : MayChange i s t) (hi : ∀ x, i ≠ .ldST x) : t.st = s.st := by
  cases i with
  | ldST x => exact absurd rfl (hi x)
  | _ => exact (congrArg State.st h :)

theorem MayChange.draws_eq (h : MayChange i s t) (hi : ∀ x kk, i ≠ .rnd x kk) :
    t.draws = s.draws ∧ t.drawCount = s.drawCount := by
  cases i with
  | rnd x kk => exact absurd rfl (hi x kk)
  | _ => exact ⟨(congrArg State.draws h :), (congrArg State.drawCount h :)⟩

end

/-! ### The rules about the whole machine -/

/-- Settles O14: of the instructions left, none has PC among the parts it may change. -/
theorem onlyFlowInstructionsWritePc : Obligations.OnlyFlowInstructionsWritePc := by
  intro i s
  obtain ⟨t, hexec, hframe, -⟩ := exec_next s i
  refine ⟨t, hexec, ?_⟩
  cases i with
  | ret | jp _ | call _ | jpV0 _ | seImm _ _ | sneImm _ _ | seReg _ _ _ | sneReg _ _ _ | skp _
  | sknp _ => exact False.elim
  | _ => exact fun _ => (congrArg State.pc hframe :)

/-- Settles O16: none of the others has memory among the parts it may change, and none at all has
FONT, so the bytes read as before too. -/
theorem onlyStoresWriteMemory : Obligations.OnlyStoresWriteMemory := by
  intro i s
  obtain ⟨t, hexec, hframe, -⟩ := exec_next s i
  refine ⟨t, hexec, hframe.font_eq, ?_⟩
  cases i with
  | ldB _ | stRegs _ => exact False.elim
  | _ =>
    exact fun _ =>
      ⟨(congrArg State.mem hframe :), fun a => (congrArg (State.byteAt · a) hframe :)⟩

/-- Settles O17: none of the others has the display among the parts it may change. -/
theorem onlyClearAndDrawWriteDisplay : Obligations.OnlyClearAndDrawWriteDisplay := by
  intro i s
  obtain ⟨t, hexec, hframe, -⟩ := exec_next s i
  refine ⟨t, hexec, ?_⟩
  cases i with
  | cls | drw _ _ _ => exact False.elim
  | _ => exact fun _ => (congrArg State.disp hframe :)

/-- Settles O18: none of the others has the stack among the parts it may change. -/
theorem onlyCallAndReturnTouchTheStack : Obligations.OnlyCallAndReturnTouchTheStack := by
  intro i s
  obtain ⟨t, hexec, hframe, -⟩ := exec_next s i
  refine ⟨t, hexec, ?_⟩
  cases i with
  | call _ | ret => exact False.elim
  | _ => exact fun _ => (congrArg State.stack hframe :)

/-- Of the block V0 to Vx a load fills the registers whose bytes lie inside the memory, and no other
register (R242). -/
theorem State.getV_loadBytes (i : Instr) (x r : Nibble) (a : Nat) (s : State) :
    (State.loadBytes i a (regsUpTo x) s).getV r =
      if r.toNat ≤ x.toNat ∧ a + r.toNat ≤ Config.memTop then s.byteAt (a + r.toNat)
      else s.getV r := by
  have hlength := regsUpTo_length x
  obtain hout | hin := Nat.lt_or_ge (Config.memTop + 1) (a + (regsUpTo x).length)
  · rw [State.loadBytes_out s i _ a (regsUpTo_ne_nil x) hout, State.raise_getV,
      getV_loadedV_take s x _ a (by omega)]
    exact if_congr (by omega) rfl rfl
  · rw [State.loadBytes_in s i _ a hin, ← List.take_of_length_le (Nat.le_of_eq hlength),
      getV_loadedV_take s x _ a le_rfl]
    exact if_congr (by omega) rfl rfl

/-- Settles O19: the write of a register other than VF leaves VF, a block that ends below V15 does not
reach it, and the instructions left have no register among the parts they may change. -/
theorem onlyFlagWritersOrDestinationChangeVf :
    Obligations.OnlyFlagWritersOrDestinationChangeVf := by
  intro i s
  obtain ⟨t, hexec, hframe, -⟩ := exec_next s i
  refine ⟨t, hexec, ?_⟩
  cases i with
  | addReg _ _ | sub _ _ | subn _ _ | shr _ _ | shl _ _ | drw _ _ _ => exact False.elim
  | ldImm _ _ | addImm _ _ | ldReg _ _ | orReg _ _ | andReg _ _ | xorReg _ _ | ldVxDT _ =>
    cases hexec
    exact fun hx => State.getV_setV_of_ne (Ne.symm hx) _ s
  | rnd _ _ =>
    cases hexec
    exact fun hx => (State.getV_setV_of_ne (Ne.symm hx) _ _).trans (by rw [State.draw_snd]; rfl)
  | ldRegs x =>
    cases hexec
    intro hx
    have hx15 : x.toNat ≤ vf.toNat := Nat.le_of_lt_succ x.isLt
    have hvf : ¬ vf.toNat ≤ x.toNat := fun h => hx (BitVec.eq_of_toNat_eq (hx15.antisymm h))
    exact (State.getV_loadBytes _ x vf _ s).trans (if_neg fun h => hvf h.1)
  | _ => exact fun _ => (congrArg (State.getV · vf) hframe :)

/-- Settles O20: an instruction that does not leave RUN and the record enters the wait of its Fx0A or
raises the kind that is its own. -/
theorem faultKindsByInstruction : Obligations.FaultKindsByInstruction := by
  intro i s
  obtain ⟨t, hexec, -, hafter⟩ := exec_next s i
  refine ⟨t, hexec, ?_⟩
  cases hafter with
  | kept hrun hfinfo => exact .inl ⟨hrun, hfinfo⟩
  | waits x hi hrun hfinfo =>
    subst hi
    exact .inr ⟨hrun, hfinfo⟩
  | raised kind addr hkind hfits hrun hfinfo =>
    right
    cases i with
    | ret | call _ | skp _ | sknp _ | drw _ _ _ | ldB _ | stRegs _ | ldRegs _ =>
      cases hkind
      exact hrun
    | _ => cases hkind

/-! ### The whole cycle -/

theorem cycle_next (s : State) : ∃ t, cycle s = .next t := by
  obtain ⟨t, hcycle, -⟩ := cycle_key s
  exact ⟨t, hcycle⟩

/-- Settles O12: both timers are ticked before the execute step, and only Fx15 and Fx18 change one
in it. -/
theorem timersTickOnceACycle : Obligations.TimersTickOnceACycle := by
  intro s w hrun hfetch
  cases hdecode : decodeWord w with
  | none =>
    exact ⟨_, (cycle_running s hrun).trans (runningCycle_undefined s hfetch hdecode),
      fun _ => tickTimer_toNat s.dt, fun _ => tickTimer_toNat s.st, nofun, nofun⟩
  | some i =>
    obtain ⟨t, hexec, hframe, -⟩ := exec_next s.ready i
    refine ⟨t, (cycle_exec hrun hfetch hdecode).trans hexec, fun hi => ?dt, fun hi => ?st,
      fun x hi => ?setsDt, fun x hi => ?setsSt⟩
    case dt =>
      rw [hframe.dt_eq fun x h => hi x (congrArg some h), State.ready_dt, tickTimer_toNat]
    case st =>
      rw [hframe.st_eq fun x h => hi x (congrArg some h), State.ready_st, tickTimer_toNat]
    case setsDt => cases hi; cases hexec; rfl
    case setsSt => cases hi; cases hexec; rfl

/-- Settles O13: a cycle from Running faults at the fetch or at the decoder, or it executes the
instruction, which keeps Running, enters the wait of its Fx0A, or faults. -/
theorem cycleEndsInOneOfThreeOutcomes : Obligations.CycleEndsInOneOfThreeOutcomes := by
  intro s hrun
  obtain ⟨t, hcycle⟩ := cycle_next s
  refine ⟨t, hcycle, ?_⟩
  obtain ⟨hidle, -⟩ | ⟨-, _, -, rfl⟩ | ⟨-, _, -, -, rfl⟩ | ⟨-, w, i, hfetch, hdecode, hexec⟩ :=
    cycle_cases s hcycle
  · exact absurd hrun hidle
  · exact .inr (.inr ⟨_, rfl⟩)
  · exact .inr (.inr ⟨_, rfl⟩)
  · cases runAfter_of_exec hexec with
    | kept hkept hfinfo => exact .inl (hkept.trans hrun)
    | waits x hi hwait hfinfo => exact .inr (.inl ⟨x, w, hwait, hfetch, hi ▸ hdecode⟩)
    | raised kind addr hkind hfits hfault hfinfo => exact .inr (.inr ⟨kind, hfault⟩)

end Sys2Proof
end

section
/-! PROOFS. The two invariants: the consistent state, at power-on and after every step, and the fault
record that fits its kind (10_state.md 11, 60_exceptions.md 1, D5). -/

namespace Sys2Proof

open Sys2Proof.Machine

/-! ### key_down by the run state (R256) -/

theorem keyDown_awaiting (k : Nibble) {x : Nibble} {s : State} (h : s.run = .awaitingKey x) :
    keyDown k s = ((s.setKey k true).setV x (keyByte k)).setRun .running := by
  simp only [keyDown, h]

theorem keyDown_not_awaiting (k : Nibble) {s : State} (h : ∀ x, s.run ≠ .awaitingKey x) :
    keyDown k s = s.setKey k true := by
  unfold keyDown
  split
  · exact absurd ‹_› (h _)
  · rfl
  · rfl

/-! ### The parts of a consistent state after an instruction -/

section

variable {i : Instr} {s t : State}

theorem exec_memOk (hexec : exec i s = .next t) (h : s.MemOk) : t.MemOk := by
  have hframe := mayChange_of_exec hexec
  cases i with
  | ldB _ | stRegs _ =>
    rw [State.MemOk, hframe.font_eq]
    cases hexec
    exact State.storeBytes_wf s _ _ _ h
  | _ =>
    rw [show t = _ from hframe]
    exact h

theorem exec_stackOk (hexec : exec i s = .next t) (hpc : s.pc.toNat ≤ 0x1000) (h : s.StackOk) :
    t.StackOk := by
  have hframe := mayChange_of_exec hexec
  obtain ⟨hlength, hentries⟩ := h
  cases i with
  | ret =>
    cases hstack : s.stack with
    | nil =>
      cases hexec.symm.trans (execRet_nil s hstack)
      exact ⟨hlength, hentries⟩
    | cons a rest =>
      cases hexec.symm.trans (execRet_cons s hstack)
      rw [hstack] at hlength hentries
      exact ⟨Nat.le_of_succ_le hlength, (List.forall_mem_cons.1 hentries).2⟩
  | call nnn =>
    obtain hfree | hfull := Nat.lt_or_ge s.stack.length 16
    · cases hexec.symm.trans (execCall_free s nnn hfree)
      exact ⟨hfree, List.forall_mem_cons.2 ⟨hpc, hentries⟩⟩
    · cases hexec.symm.trans (execCall_full s nnn hfull)
      exact ⟨hlength, hentries⟩
  | _ =>
    rw [show t = _ from hframe]
    exact ⟨hlength, hentries⟩

theorem State.skipIf_pc_le (c : Bool) (hpc : s.pc.toNat ≤ 0x1000) :
    (s.skipIf c).pc.toNat ≤ 0x10FE := by
  rw [State.skipIf_pc]
  split
  · rw [BitVec.toNat_add]
    exact (Nat.mod_le _ _).trans (Nat.add_le_add hpc (by decide : (2#16).toNat ≤ 0xFE))
  · exact hpc.trans (by decide)

/-- The bound 0x10FE is that of Bnnn, the farthest of the jumps and skips (R39, R143). -/
theorem exec_pcOk (hexec : exec i s = .next t) (hpc : s.pc.toNat ≤ 0x1000) (h : s.StackOk) :
    t.PcOk := by
  have hframe := mayChange_of_exec hexec
  have hkept : s.PcOk := hpc.trans (by decide)
  cases i with
  | ret =>
    cases hstack : s.stack with
    | nil =>
      cases hexec.symm.trans (execRet_nil s hstack)
      exact hkept
    | cons a rest =>
      cases hexec.symm.trans (execRet_cons s hstack)
      have ha := h.2 a (hstack ▸ List.mem_cons_self)
      exact ha.trans (by decide)
  | call nnn =>
    obtain hfree | hfull := Nat.lt_or_ge s.stack.length 16
    · cases hexec.symm.trans (execCall_free s nnn hfree)
      exact (absAddr_toNat nnn).trans_le (nnn.isLt.le.trans (by decide))
    · cases hexec.symm.trans (execCall_full s nnn hfull)
      exact hkept
  | jp nnn =>
    cases hexec
    exact (absAddr_toNat nnn).trans_le (nnn.isLt.le.trans (by decide))
  | jpV0 nnn =>
    cases hexec
    have hnnn := nnn.isLt
    have hv0 := (s.getV 0).isLt
    rw [State.PcOk, State.setPc_pc, State.targetV0_toNat]
    omega
  | seImm _ _ | sneImm _ _ | seReg _ _ _ | sneReg _ _ _ =>
    cases hexec
    exact State.skipIf_pc_le _ hpc
  | skp x =>
    obtain hout | ⟨k, hkey⟩ := out_or_exists_key (s.getV x)
    · cases hexec.symm.trans (execSkp_out s hout)
      exact hkept
    · cases hexec.symm.trans (execSkp_key s hkey)
      exact State.skipIf_pc_le _ hpc
  | sknp x =>
    obtain hout | ⟨k, hkey⟩ := out_or_exists_key (s.getV x)
    · cases hexec.symm.trans (execSknp_out s hout)
      exact hkept
    · cases hexec.symm.trans (execSknp_key s hkey)
      exact State.skipIf_pc_le _ hpc
  | _ =>
    rw [show t = _ from hframe]
    exact hkept

theorem exec_recordOk (hexec : exec i s = .next t) (h : s.RecordOk) (hrun : s.run = .running) :
    t.RecordOk := by
  have hnone : s.finfo.isSome = false := by rw [h, hrun]; rfl
  cases runAfter_of_exec hexec with
  | kept hrun' hfinfo => rw [State.RecordOk, hfinfo, hrun', h]
  | waits x hi hrun' hfinfo => rw [State.RecordOk, hfinfo, hrun', hnone]; rfl
  | raised kind addr hkind hfits hrun' hfinfo => rw [State.RecordOk, hfinfo, hrun']; rfl

/-! ### The consistent state -/

theorem State.ready_pc_le (h : s.pc.toNat ≤ 0xFFE) : s.ready.pc.toNat ≤ 0x1000 := by
  rw [State.ready_pc, BitVec.toNat_add]
  exact (Nat.mod_le _ _).trans (Nat.add_le_add_right h 2)

theorem exec_ready_inv (hexec : exec i s.ready = .next t) (h : s.Inv) (hrun : s.run = .running)
    (hpc : s.pc.toNat ≤ 0xFFE) : t.Inv := by
  obtain ⟨hmem, hstack, -, hrecord, -⟩ := h
  have hclosed : t.loadOpen = false := (mayChange_of_exec hexec).loadOpen_eq
  exact ⟨exec_memOk hexec hmem, exec_stackOk hexec (State.ready_pc_le hpc) hstack,
    exec_pcOk hexec (State.ready_pc_le hpc) hstack, exec_recordOk hexec hrecord hrun,
    fun hopen => by rw [hclosed] at hopen; cases hopen⟩

theorem cycle_inv (hcycle : cycle s = .next t) (h : s.Inv) : t.Inv := by
  obtain ⟨-, rfl⟩ | ⟨-, a, hfetch, rfl⟩ | ⟨-, w, hfetch, -, rfl⟩ | ⟨hrun, w, i, hfetch, -, hexec⟩ :=
    cycle_cases s hcycle
  · exact h
  · obtain ⟨hmem, hstack, hpc, -, hload⟩ := h
    refine ⟨hmem, hstack, hpc, rfl, fun hopen => ?_⟩
    have hin := State.fetch_in s (by rw [(hload hopen).1]; decide)
    cases hfetch.symm.trans hin
  · obtain ⟨hmem, hstack, -, -, -⟩ := h
    have hpc := State.ready_pc_le (State.fetch_pc s hfetch)
    exact ⟨hmem, hstack, hpc.trans (by decide), rfl, nofun⟩
  · exact exec_ready_inv hexec h hrun (State.fetch_pc s hfetch)

theorem warmReset_inv (h : s.Inv) : s.warmReset.Inv :=
  ⟨Memory.wf_afterReset s.font s.mem h.1, ⟨Nat.zero_le _, nofun⟩,
    (by decide : State.reset.PcOk), rfl, fun _ => ⟨rfl, rfl⟩⟩

theorem loadRom_inv_kept {bytes : List Byte} (hload : loadRom bytes s = .next t) (h : s.Inv) :
    t.Inv := by
  obtain ⟨-, hfits, rfl⟩ := loadRom_inv s hload
  obtain ⟨hmem, hrest⟩ := h
  exact ⟨Memory.wf_writeAll s.font bytes _ s.mem hmem (Nat.add_le_add_left hfits 0x200), hrest⟩

/-- A key that ends a wait finds no record, since the core is not Faulted, and loading closed, since
before the first cycle it is Running. -/
theorem keyDown_inv (k : Nibble) (h : s.Inv) : (keyDown k s).Inv := by
  by_cases hwait : ∃ x, s.run = .awaitingKey x
  · obtain ⟨x, hx⟩ := hwait
    obtain ⟨hmem, hstack, hpc, hrecord, hload⟩ := h
    rw [keyDown_awaiting k hx]
    refine ⟨hmem, hstack, hpc, ?_, fun hopen => ?_⟩
    · exact hrecord.trans (by rw [hx]; rfl)
    · cases hx.symm.trans (hload hopen).2
  · rw [keyDown_not_awaiting k (not_exists.1 hwait)]
    exact h

theorem perform_inv {op : HostOp} (hperform : perform op s = .next t) (h : s.Inv) : t.Inv := by
  cases op with
  | cycle => exact cycle_inv hperform h
  | reset => cases hperform; exact warmReset_inv h
  | loadRom bytes => exact loadRom_inv_kept hperform h
  | keyDown k => cases hperform; exact keyDown_inv k h
  | keyUp _ | clearKeys | display | observe => cases hperform; exact h

end

/-- Settles O21: the stack and memory are empty, PC is 0x200 and RUN Running. -/
theorem powerOnStateIsConsistent : Obligations.PowerOnStateIsConsistent :=
  ⟨⟨rfl, ⟨Nat.zero_le _, nofun⟩, by decide, rfl, fun _ => ⟨rfl, rfl⟩⟩, nofun⟩

/-- Settles O22, part by part of a consistent state, over what a cycle and each host operation can
do; the PC bound at the fetch gives that of the entry a call pushes. -/
theorem stepKeepsTheStateConsistent : Obligations.StepKeepsTheStateConsistent := by
  intro s t h hstep
  cases hscript : s.script with
  | nil => exact cycle_inv ((step_nil s hscript).symm.trans hstep) h
  | cons op rest => exact perform_inv ((step_cons s hscript).symm.trans hstep) h

/-! ### The fault record -/

section

variable {s t : State}

theorem recordFits_of_eq (hrun : t.run = s.run) (hfinfo : t.finfo = s.finfo) (h : s.RecordFits) :
    t.RecordFits := by
  rw [State.RecordFits, hrun, hfinfo]
  exact h

theorem recordFits_of_not_faulted (hrun : t.run.isFaulted = false) : t.RecordFits := by
  intro kind hkind
  rw [hkind] at hrun
  cases hrun

theorem recordFits_of_faulted {kind : ErrorKind} {f : FaultInfo} (hrun : t.run = .faulted kind)
    (hfinfo : t.finfo = some f) (hfits : f.fits kind = true) : t.RecordFits := by
  intro kind' hkind'
  cases hrun.symm.trans hkind'
  exact ⟨f, hfinfo, hfits⟩

/-- A fetch that faults has PC above 0xFFE, so its record needs no word, and an address above 0xFFF
(R284). -/
theorem fits_of_fetchFault {a : Nat} (hfetch : s.fetch = .inr a) :
    FaultInfo.fits .addressOutOfBounds ⟨s.pc, none, some a⟩ = true := by
  obtain hout | hin := Nat.lt_or_ge 0xFFE s.pc.toNat
  · cases hfetch.symm.trans (State.fetch_out s hout)
    have hpc : ¬ s.pc.toNat + 1 ≤ Config.memTop := Nat.not_le.2 (Nat.succ_lt_succ hout)
    have ha : Config.memTop < max s.pc.toNat 0x1000 := lt_max_of_lt_right (by decide)
    simp [FaultInfo.fits, hpc, ha]
  · cases hfetch.symm.trans (State.fetch_in s hin)

theorem cycle_recordFits (hcycle : cycle s = .next t) (h : s.RecordFits) : t.RecordFits := by
  obtain ⟨-, rfl⟩ | ⟨-, a, hfetch, rfl⟩ | ⟨-, w, -, -, rfl⟩ | ⟨hrun, w, i, hfetch, -, hexec⟩ :=
    cycle_cases s hcycle
  · exact h
  · exact recordFits_of_faulted rfl rfl (fits_of_fetchFault hfetch)
  · exact recordFits_of_faulted rfl rfl rfl
  · cases runAfter_of_exec hexec with
    | kept hrun' hfinfo => exact recordFits_of_eq hrun' hfinfo h
    | waits x hi hrun' hfinfo => exact recordFits_of_not_faulted (by rw [hrun']; rfl)
    | raised kind addr hkind hfits hrun' hfinfo =>
      have hpc : s.ready.pc - 2 = s.pc := BitVec.add_sub_cancel s.pc 2
      exact recordFits_of_faulted hrun' hfinfo (hfits _ (hpc ▸ State.fetch_pc s hfetch))

theorem perform_recordFits {op : HostOp} (hperform : perform op s = .next t) (h : s.RecordFits) :
    t.RecordFits := by
  cases op with
  | cycle => exact cycle_recordFits hperform h
  | reset => cases hperform; exact recordFits_of_not_faulted rfl
  | loadRom bytes =>
    obtain ⟨-, -, rfl⟩ := loadRom_inv s hperform
    exact h
  | keyDown k =>
    cases hperform
    by_cases hwait : ∃ x, s.run = .awaitingKey x
    · obtain ⟨x, hx⟩ := hwait
      rw [keyDown_awaiting k hx]
      exact recordFits_of_not_faulted rfl
    · rw [keyDown_not_awaiting k (not_exists.1 hwait)]
      exact h
  | keyUp _ | clearKeys | display | observe => cases hperform; exact h

end

/-- Settles O23: a fault entry is the fetch's, the decoder's or the raise of an executed instruction,
each with the word and address of its kind; every other step leaves RUN and the record or a RUN that
is not Faulted. -/
theorem stepKeepsTheFaultRecordFitting : Obligations.StepKeepsTheFaultRecordFitting := by
  intro s t h hstep
  cases hscript : s.script with
  | nil => exact cycle_recordFits ((step_nil s hscript).symm.trans hstep) h
  | cons op rest => exact perform_recordFits ((step_cons s hscript).symm.trans hstep) h

end Sys2Proof
end

section
/-! PROOFS. What Dxyn leaves, by the rows it draws before it ends or faults, and the three statements
about it (46_display.md R201, D6, D18). -/

namespace Sys2Proof

open Sys2Proof.Machine

/-! ### The rows a draw leaves -/

section

variable {x y : Nibble} {m : Nat} {s t : State}

/-- The mask of the statements is the cells that the rows of the sprite engine cover. -/
theorem spriteCovers_eq_rowsCover (x y : Nibble) (m : Nat) (s : State) (j : Nat) :
    spriteCovers x y m s j =
      rowsCover s s.base (startColumn (s.getV x)) (startRow (s.getV y)) 0 m j := by
  simp only [spriteCovers, rowsCover, rowCovers, startColumn, startRow, State.base, Nat.add_zero,
    decide_true, Bool.true_and]
  ac_rfl

/-- The cells a sprite covers depend on Vx, Vy, IR and memory alone. -/
theorem spriteCovers_congr (hx : t.getV x = s.getV x) (hy : t.getV y = s.getV y) (hir : t.ir = s.ir)
    (hbytes : SameBytes s t) (j : Nat) : spriteCovers x y m t j = spriteCovers x y m s j := by
  simp only [spriteCovers, hx, hy, hir, hbytes _]

/-- The state after m rows of the sprite of instruction i have been drawn, VF cleared first (R201). -/
def drawnRows (i : Instr) (x y : Nibble) (m : Nat) (s : State) : State :=
  State.drawRows i s.base (startColumn (s.getV x)) (startRow (s.getV y)) m 0 (s.setV vf 0)

/-- Where the m first rows, as far as they are on the display, lie inside the memory, they are drawn
and nothing is raised. -/
theorem drawnBy_drawnRows (i : Instr) (hinside : ∀ q, q < m → q + startRow (s.getV y) ≤ 31 →
    s.base + q ≤ Config.memTop) : DrawnBy x y m s (drawnRows i x y m s) := by
  obtain ⟨hpixel, hhit, hmiss, hrun, hfinfo⟩ := State.drawRows_spec (s.setV vf 0) i s.base
    (startColumn (s.getV x)) (startRow (s.getV y)) m 0 (fun q _ hq => hinside q (by omega))
  have hframe := State.drawRows_frame (s.setV vf 0) i s.base (startColumn (s.getV x))
    (startRow (s.getV y)) m 0
  have hregs := State.drawRows_getV (s.setV vf 0) i s.base (startColumn (s.getV x))
    (startRow (s.getV y)) m 0
  rw [hrun, hfinfo] at hframe
  rw [drawnRows]
  have hcovers (j : Nat) : rowsCover (s.setV vf 0) s.base (startColumn (s.getV x))
      (startRow (s.getV y)) 0 m j = spriteCovers x y m s j := (spriteCovers_eq_rowsCover ..).symm
  simp only [hcovers, State.setV_pixel, State.getV_setV_same] at hpixel hhit hmiss
  refine ⟨hpixel, ?_, ⟨fun hvf => ?_, hhit⟩, hframe, fun r hr => ?_, fun a => ?_⟩
  · by_cases h : ∃ j, j < 2048 ∧ s.pixel j = true ∧ spriteCovers x y m s j = true
    · exact .inl (hhit h)
    · exact .inr (hmiss fun j hj hlit => by simpa using fun hc => h ⟨j, hj, hlit, hc⟩)
  · by_contra h
    have hzero := hmiss fun j hj hlit => by simpa using fun hc => h ⟨j, hj, hlit, hc⟩
    cases hvf.symm.trans hzero
  · rw [hregs r hr, State.getV_setV_of_ne hr]
  · exact (congrArg (State.byteAt · a) hframe :)

/-- Where row m is on the display and the first outside the memory, a draw of more rows draws the m
before it and raises at its address. -/
theorem drawnRows_fault (i : Instr) {k : Nat} (hk : m < k) (hrow : m + startRow (s.getV y) ≤ 31)
    (hinside : ∀ q, q < m → s.base + q ≤ Config.memTop) (hout : Config.memTop < s.base + m) :
    drawnRows i x y k s =
      (drawnRows i x y m s).raise .addressOutOfBounds i (some (s.base + m)) := by
  have hzero : 0 + m = m := Nat.zero_add m
  have h := State.drawRows_fault (s.setV vf 0) i s.base (startColumn (s.getV x))
    (startRow (s.getV y)) m k 0 hk (by rwa [hzero]) (fun q _ hq => hinside q (by omega))
    (by rwa [hzero])
  rwa [hzero] at h

theorem spriteCovers_of_drawnBy (h : DrawnBy x y m s t) (hx : x ≠ vf) (hy : y ≠ vf) (j : Nat) :
    spriteCovers x y m t j = spriteCovers x y m s j := by
  obtain ⟨-, -, -, hframe, hregs, hbytes⟩ := h
  exact spriteCovers_congr (hregs x hx) (hregs y hy) (congrArg State.ir hframe :) hbytes j

/-- Two states with the same 2048 cells have the same display. -/
theorem disp_eq_of_pixel (h : ∀ j, j < 2048 → t.pixel j = s.pixel j) : t.disp = s.disp := by
  refine Grid.ext_get _ _ fun j => ?_
  obtain hj | hj := Nat.lt_or_ge j 2048
  · exact h j hj
  · rw [Grid.get_out _ j hj, Grid.get_out _ j hj]

end

/-! ### DRW Vx, Vy, n -/

theorem exec_drw (x y n : Nibble) (s : State) : exec (.drw x y n) s =
    .next (drawnRows (.drw x y n) x y n.toNat s) := rfl

/-- Settles O42: with no row outside the memory all n rows are drawn. -/
theorem drawIsXorWithClippedMask : Obligations.DrawIsXorWithClippedMask :=
  ⟨encodedAs_drw, fun x y n s hinside => ⟨_, exec_drw x y n s, drawnBy_drawnRows _ hinside⟩⟩

/-- Settles O43: the row at 0x1000, or the first row where IR is above it, comes at or before the
given one, so it is read; the rows before it are drawn as in a draw of so many rows. -/
theorem drawFaultKeepsEarlierRows : Obligations.DrawFaultKeepsEarlierRows := by
  intro x y n s r hr hrow hout
  have hinside (q : Nat) (hq : q < 0x1000 - s.ir.toNat) : s.base + q ≤ Config.memTop := by
    rw [State.base, Config.memTop]
    omega
  have haddr : s.base + (0x1000 - s.ir.toNat) = max s.ir.toNat 0x1000 := by
    rw [State.base]
    omega
  have hfirst : 0x1000 - s.ir.toNat + startRow (s.getV y) ≤ 31 := by
    rw [startRow]
    omega
  have hfault := drawnRows_fault (x := x) (.drw x y n) (by omega : 0x1000 - s.ir.toNat < n.toNat)
    hfirst hinside (haddr ▸ lt_max_of_lt_right (by decide))
  refine ⟨_, _, exec_drw x y n s, drawnBy_drawnRows (.drw x y n) fun q hq _ => hinside q hq, ?_⟩
  rw [hfault, haddr]
  rfl

/-- Settles O44: neither draw moves the sprite, so both meet the cells with the same mask, and the
second undoes the exclusive or of the first. -/
theorem drawingTwiceRestoresTheDisplay : Obligations.DrawingTwiceRestoresTheDisplay := by
  intro x y n s hx hy hinside
  have hfirst := drawnBy_drawnRows (x := x) (.drw x y n) hinside
  refine ⟨_, _, exec_drw x y n s, exec_drw x y n _, ?_⟩
  generalize drawnRows (.drw x y n) x y n.toNat s = t at *
  have hmask := spriteCovers_of_drawnBy hfirst hx hy
  obtain ⟨hpixel, -, hvf, hframe, hregs, -⟩ := hfirst
  have hsecond : DrawnBy x y n.toNat t _ := drawnBy_drawnRows (.drw x y n) (by
    rw [hregs y hy, (congrArg State.base hframe :)]
    exact hinside)
  obtain ⟨hpixel', -, hvf', -⟩ := hsecond
  refine ⟨disp_eq_of_pixel fun j hj => ?_, hvf, hvf'.trans (exists_congr fun j => ?_)⟩
  · rw [hpixel' j hj, hmask, hpixel j hj, Bool.xor_assoc, Bool.xor_self, Bool.xor_false]
  · rw [hmask]
    refine and_congr_right fun hj => and_congr_left fun hc => ?_
    rw [hpixel j hj, hc, Bool.xor_true, Bool.not_eq_true']

end Sys2Proof
end

section
/-! PROOFS. What consecutive bytes written leave, and the statements about memory: its reads and
writes, the fetch after a store, Fx33, Fx55 and Fx65 with their faults, reset() and load_rom
(20_memory.md, 49_memory_ops.md, 70_reset_and_hazards.md 1, 50_host_interface.md 1). -/

namespace Sys2Proof

open Sys2Proof.Machine

/-! ### One byte and consecutive bytes -/

/-- Settles O54: memory's own laws, with the bound of R62 put before them. -/
theorem memoryReadsTheLastWrite : Obligations.MemoryReadsTheLastWrite := by
  refine ⟨fun s a => ⟨State.memRead_in s a, State.memRead_out s a⟩, fun s a => State.memWrite_out s a,
    fun s a b hs ha => ⟨_, State.memWrite_in s a b ha, Memory.wf_write s.font s.mem hs a b ha, rfl,
      fun c => Memory.read_write s.font s.mem hs a b c⟩, fun s t hs ht hfont hread => ?_⟩
  rw [State.MemOk, ← hfont] at ht
  refine Memory.ext_read s.font s.mem t.mem hs ht fun a => (hread a).trans ?_
  rw [State.byteAt, hfont]

/-- Settles O55: the second write leaves the first byte, and the fetch joins the two. -/
theorem fetchSeesTheStore : Obligations.FetchSeesTheStore := by
  intro s b0 b1 hs hpc
  have hpc0 : s.pc.toNat ≤ Config.memTop := hpc.trans (by decide)
  have hpc1 : s.pc.toNat + 1 ≤ Config.memTop := Nat.succ_le_succ hpc
  refine ⟨_, _, State.memWrite_in s _ b0 hpc0, State.memWrite_in _ _ b1 hpc1, _,
    State.fetch_in _ hpc, ?_⟩
  have hread := Memory.read_write s.font _ (Memory.wf_write s.font s.mem hs _ b0 hpc0)
    (s.pc.toNat + 1) b1
  rw [joinBytes_toNat, State.byteAt, State.byteAt, hread, hread, if_pos rfl, if_neg (by simp),
    Memory.read_write s.font s.mem hs, if_pos rfl]

/-- The state with consecutive bytes written from an address on. -/
def writeBytes (a : Nat) (xs : List Byte) (s : State) : State :=
  { s with mem := Memory.writeAll s.font a xs s.mem }

section

variable {s : State} {a : Nat} {xs : List Byte}

/-- Bytes that end inside the memory, or no bytes at any address. -/
theorem byteAt_writeBytes (hs : s.MemOk) (hxs : a + xs.length ≤ max a (Config.memTop + 1))
    (b : Nat) : (writeBytes a xs s).byteAt b =
      if a ≤ b then (xs[b - a]?).getD (s.byteAt b) else s.byteAt b := by
  obtain hin | hout := Nat.le_total a (Config.memTop + 1)
  · exact Memory.read_writeAll s.font xs a s.mem hs (by omega) b
  · have hnil : xs = [] := List.length_eq_zero_iff.1 (by omega)
    subst hnil
    exact (ite_self _).symm

theorem byteAt_writeBytes_getElem (hs : s.MemOk) (hxs : a + xs.length ≤ max a (Config.memTop + 1))
    {j : Nat} (hj : j < xs.length) : (writeBytes a xs s).byteAt (a + j) = xs[j] := by
  rw [byteAt_writeBytes hs hxs, if_pos (Nat.le_add_right a j), Nat.add_sub_cancel_left,
    List.getElem?_eq_getElem hj, Option.getD_some]

theorem onlyBytes_writeBytes (hs : s.MemOk) (hxs : a + xs.length ≤ max a (Config.memTop + 1))
    {hi : Nat} (hhi : a + xs.length ≤ max a hi) : OnlyBytes a hi s (writeBytes a xs s) := by
  refine ⟨rfl, fun b hb => ?_⟩
  rw [byteAt_writeBytes hs hxs]
  split
  · rw [List.getElem?_eq_none (by omega), Option.getD_none]
  · rfl

theorem storeBytes_eq_writeBytes (i : Instr) (h : a + xs.length ≤ Config.memTop + 1) :
    State.storeBytes i a xs s = writeBytes a xs s := State.storeBytes_in s i xs a h

/-- Of a store that faults the bytes below 0x1000 stay written (R287, D6). -/
theorem storeBytes_eq_raise (i : Instr) (h : Config.memTop < a + (xs.length - 1)) (hne : xs ≠ []) :
    State.storeBytes i a xs s = (writeBytes a (xs.take (0x1000 - a)) s).raise .addressOutOfBounds i
      (some (max a 0x1000)) := by
  have hpos := List.length_pos_iff.2 hne
  exact State.storeBytes_out s i xs a hne (by omega)

theorem length_take_le (a : Nat) (xs : List Byte) :
    a + (xs.take (0x1000 - a)).length ≤ max a 0x1000 := by
  rw [List.length_take]
  omega

/-- What a store that faults has written: the bytes before 0x1000, and no other. -/
theorem byteAt_writeBytes_take (hs : s.MemOk) {j : Nat} (hj : j < xs.length) (hin : a + j ≤ 0xFFF) :
    (writeBytes a (xs.take (0x1000 - a)) s).byteAt (a + j) = xs[j] := by
  have hlt : j < (xs.take (0x1000 - a)).length := by
    rw [List.length_take]
    omega
  rw [byteAt_writeBytes_getElem hs (length_take_le a xs) hlt, List.getElem_take]

theorem onlyBytes_writeBytes_take (hs : s.MemOk) :
    OnlyBytes a 0x1000 s (writeBytes a (xs.take (0x1000 - a)) s) :=
  onlyBytes_writeBytes hs (length_take_le a xs) (length_take_le a xs)

end

/-! ### LD B, Vx; LD [I], Vx; LD Vx, [I] -/

section

variable (x : Nibble) (s : State)

theorem exec_ldB : exec (.ldB x) s =
    .next (State.storeBytes (.ldB x) s.base (decimalDigits (s.getV x)) s) := rfl

theorem exec_stRegs : exec (.stRegs x) s =
    .next (State.storeBytes (.stRegs x) s.base ((regsUpTo x).map s.getV) s) := rfl

theorem exec_ldRegs : exec (.ldRegs x) s =
    .next (State.loadBytes (.ldRegs x) s.base (regsUpTo x) s) := rfl

end

/-- The digits fit a byte, so they are stored as they are (R240). -/
theorem decimalDigits_getElem_toNat (b : Byte) :
    (decimalDigits b)[0].toNat = b.toNat / 100 ∧ (decimalDigits b)[1].toNat = b.toNat / 10 % 10 ∧
      (decimalDigits b)[2].toNat = b.toNat % 10 := by
  have hb := b.isLt
  simp only [decimalDigits, List.getElem_cons_zero, List.getElem_cons_succ, BitVec.toNat_ofNat]
  omega

/-- Byte r of the block is Vr. -/
theorem regsUpTo_map_getElem {x r : Nibble} (s : State) (h : r.toNat ≤ x.toNat)
    (hr : r.toNat < ((regsUpTo x).map s.getV).length) :
    ((regsUpTo x).map s.getV)[r.toNat] = s.getV r := by
  have hreg := regsUpTo_getElem? x r.toNat h
  rw [BitVec.ofNat_toNat, BitVec.setWidth_eq] at hreg
  rw [List.getElem_map, (List.getElem?_eq_some_iff.1 hreg).2]

/-- Settles O50: the three digits are written one after another inside the memory. -/
theorem ldBStoresDecimalDigits : Obligations.LdBStoresDecimalDigits := by
  refine ⟨encodedAs_ldB, fun x s hs hir => ⟨_, exec_ldB x s, ?_⟩⟩
  have hlast : s.base + (decimalDigits (s.getV x)).length ≤ Config.memTop + 1 := Nat.succ_le_succ hir
  obtain ⟨hhundreds, htens, hunits⟩ := decimalDigits_getElem_toNat (s.getV x)
  have hbyte (j : Nat) (hj : j < 3) :=
    byteAt_writeBytes_getElem (j := j) hs (le_max_of_le_right hlast) hj
  rw [storeBytes_eq_writeBytes _ hlast]
  refine ⟨?_, ?_, ?_, onlyBytes_writeBytes hs (le_max_of_le_right hlast) (le_max_right _ _)⟩
  · exact (congrArg BitVec.toNat (hbyte 0 (by decide))).trans hhundreds
  · exact (congrArg BitVec.toNat (hbyte 1 (by decide))).trans htens
  · exact (congrArg BitVec.toNat (hbyte 2 (by decide))).trans hunits

/-- Settles O51: the registers are read before anything is written, and written one after another
inside the memory. -/
theorem stRegsStoresTheBlock : Obligations.StRegsStoresTheBlock := by
  refine ⟨encodedAs_stRegs, fun x s hs hir => ⟨_, exec_stRegs x s, ?_⟩⟩
  have hlength : ((regsUpTo x).map s.getV).length = x.toNat + 1 := by simp
  have hlast : s.base + ((regsUpTo x).map s.getV).length ≤ Config.memTop + 1 := by
    rw [hlength]
    exact Nat.succ_le_succ hir
  rw [storeBytes_eq_writeBytes _ hlast]
  refine ⟨fun r hr => ?_, onlyBytes_writeBytes hs (le_max_of_le_right hlast) ?_⟩
  · have hlt : r.toNat < ((regsUpTo x).map s.getV).length := hlength ▸ Nat.lt_succ_of_le hr
    exact (byteAt_writeBytes_getElem hs (le_max_of_le_right hlast) hlt).trans
      (regsUpTo_map_getElem s hr hlt)
  · rw [hlength]
    exact le_max_right _ _

/-- Settles O52: the load changes registers alone, and every byte it reads lies inside the memory. -/
theorem ldRegsLoadsTheBlock : Obligations.LdRegsLoadsTheBlock := by
  refine ⟨encodedAs_ldRegs, fun x s hir => ⟨_, exec_ldRegs x s, fun r => ?_, ?_⟩⟩
  · rw [State.getV_loadBytes]
    refine if_congr (and_iff_left_of_imp fun hr => ?_) rfl rfl
    exact (Nat.add_le_add_left hr _).trans hir
  · have hlast : s.base + (regsUpTo x).length ≤ Config.memTop + 1 := by
      rw [regsUpTo_length]
      exact Nat.succ_le_succ hir
    have hframe := loadedV_frame s (regsUpTo x) s.base s
    rw [State.loadBytes_in s _ _ _ hlast]
    exact ⟨hframe, fun a => (congrArg (State.byteAt · a) hframe :)⟩

theorem ldB_fault (x : Nibble) (s : State) (hs : s.MemOk) (hir : 0xFFF < s.ir.toNat + 2) :
    ∃ t u, exec (.ldB x) s = .next t ∧
      RaisedOver u .addressOutOfBounds (.ldB x) (some (max s.ir.toNat 0x1000)) t ∧
      (s.ir.toNat ≤ 0xFFF → (u.byteAt s.ir.toNat).toNat = (s.getV x).toNat / 100) ∧
      (s.ir.toNat + 1 ≤ 0xFFF →
        (u.byteAt (s.ir.toNat + 1)).toNat = (s.getV x).toNat / 10 % 10) ∧
      OnlyBytes s.ir.toNat 0x1000 s u := by
  obtain ⟨hhundreds, htens, -⟩ := decimalDigits_getElem_toNat (s.getV x)
  have hbyte (j : Nat) (hj : j < 3) (hin : s.ir.toNat + j ≤ 0xFFF) :=
    byteAt_writeBytes_take (xs := decimalDigits (s.getV x)) hs hj hin
  refine ⟨_, writeBytes s.base ((decimalDigits (s.getV x)).take (0x1000 - s.base)) s, exec_ldB x s,
    ?_, fun hin => ?_, fun hin => ?_, onlyBytes_writeBytes_take hs⟩
  · have hdigits : decimalDigits (s.getV x) ≠ [] := List.cons_ne_nil _ _
    rw [storeBytes_eq_raise (a := s.base) (xs := decimalDigits (s.getV x)) _ hir hdigits]
    rfl
  · exact (congrArg BitVec.toNat (hbyte 0 (by decide) hin)).trans hhundreds
  · exact (congrArg BitVec.toNat (hbyte 1 (by decide) hin)).trans htens

theorem stRegs_fault (x : Nibble) (s : State) (hs : s.MemOk) (hir : 0xFFF < s.ir.toNat + x.toNat) :
    ∃ t u, exec (.stRegs x) s = .next t ∧
      RaisedOver u .addressOutOfBounds (.stRegs x) (some (max s.ir.toNat 0x1000)) t ∧
      (∀ r : Nibble, s.ir.toNat + r.toNat ≤ 0xFFF → u.byteAt (s.ir.toNat + r.toNat) = s.getV r) ∧
      OnlyBytes s.ir.toNat 0x1000 s u := by
  have hlength : ((regsUpTo x).map s.getV).length = x.toNat + 1 := by simp
  refine ⟨_, writeBytes s.base (((regsUpTo x).map s.getV).take (0x1000 - s.base)) s, exec_stRegs x s,
    ?_, fun r hin => ?_, onlyBytes_writeBytes_take hs⟩
  · rw [storeBytes_eq_raise _ (by rwa [hlength]) (by simp [regsUpTo_ne_nil])]
    rfl
  · have hr : r.toNat ≤ x.toNat := by omega
    have hlt : r.toNat < ((regsUpTo x).map s.getV).length := hlength ▸ Nat.lt_succ_of_le hr
    exact (byteAt_writeBytes_take hs hlt hin).trans (regsUpTo_map_getElem s hr hlt)

theorem ldRegs_fault (x : Nibble) (s : State) (hir : 0xFFF < s.ir.toNat + x.toNat) :
    ∃ t u, exec (.ldRegs x) s = .next t ∧
      RaisedOver u .addressOutOfBounds (.ldRegs x) (some (max s.ir.toNat 0x1000)) t ∧
      (∀ r : Nibble, u.getV r =
        if s.ir.toNat + r.toNat ≤ 0xFFF then s.byteAt (s.ir.toNat + r.toNat) else s.getV r) ∧
      OnlyV s u := by
  have hout : Config.memTop + 1 < s.base + (regsUpTo x).length := by
    rw [regsUpTo_length]
    exact Nat.succ_lt_succ hir
  have hload := State.loadBytes_out s (.ldRegs x) (regsUpTo x) s.base (regsUpTo_ne_nil x) hout
  have hframe := loadedV_frame s ((regsUpTo x).take (Config.memTop + 1 - s.base)) s.base s
  refine ⟨_, _, exec_ldRegs x s, ?_, fun r => ?_, hframe,
    fun a => (congrArg (State.byteAt · a) hframe :)⟩
  · rw [hload]
    rfl
  · rw [← State.raise_getV, ← hload, State.getV_loadBytes]
    exact if_congr (and_iff_right_of_imp fun hin =>
      (Nat.lt_of_add_lt_add_left (Nat.lt_of_le_of_lt hin hir)).le) rfl rfl

/-- Settles O53, one instruction at a time: what precedes 0x1000 is moved, then its address, or that
of IR where IR is above it, raises. -/
theorem memoryFaultsKeepEarlierBytes : Obligations.MemoryFaultsKeepEarlierBytes :=
  ⟨ldB_fault, stRegs_fault, ldRegs_fault⟩

/-! ### reset() and load_rom -/

/-- Settles O57: reset keeps the listed bytes below FONT and between FONT and 0xA2; every other
address reads as unlisted, which is FONT or zero. -/
theorem warmResetValues : Obligations.WarmResetValues := by
  refine fun s => ⟨_, rfl, fun a => ?_, rfl⟩
  have hkept : (a < Config.fontBase ∨ (Config.fontEnd < a ∧ a < Config.resetZeroStart)) ↔
      (a ≤ 0x4F ∨ a = 0xA0 ∨ a = 0xA1) := by
    simp only [Config.fontBase, Config.fontEnd, Config.resetZeroStart]
    omega
  refine (Memory.read_afterReset s.font s.mem a).trans (if_congr hkept rfl ?_)
  exact Memory.unlisted_eq s.font a

/-- Settles O58: an image of at most 0xE00 bytes ends inside the memory; the two refusals are the two
checks of load_rom. -/
theorem loadRomLoadsOrIsRefused : Obligations.LoadRomLoadsOrIsRefused := by
  refine fun bytes s hs => ⟨fun hopen hfits => ?loads, fun hopen hlong => ?tooLarge,
    fun hclosed => ?closed⟩
  case loads =>
    have hlast : 0x200 + bytes.length ≤ max 0x200 (Config.memTop + 1) :=
      le_max_of_le_right (Nat.add_le_add_left hfits 0x200)
    exact ⟨writeBytes 0x200 bytes s, loadRom_next s bytes hopen hfits,
      fun i hi => byteAt_writeBytes_getElem hs hlast hi,
      onlyBytes_writeBytes hs hlast (le_max_right _ _)⟩
  case tooLarge =>
    have hunfit : romFits bytes = false := decide_eq_false (Nat.not_le.2 hlong)
    simp [perform, loadRom, hopen, hunfit]
  case closed => simp [perform, loadRom, hclosed]

end Sys2Proof
end

section
/-! PROOFS. The step and the cycle, one lemma per outcome, and the statements about single instructions
and key_down (40_cycle.md, 41_flow.md, 42_skip.md, 43_const_random.md, 44_alu.md 4, 45_index.md,
47_keypad.md, 48_timers.md, 50_host_interface.md 1). -/

namespace Sys2Proof

open Sys2Proof.Machine

/-! ### The step and the cycle -/

/-- Settles O9: the fetch is inside the memory, and a listed cycle is taken off the script first. -/
theorem stepRunsTheDecodedInstruction : Obligations.StepRunsTheDecodedInstruction :=
  ⟨fun s _ hscript hrun hpc hdecode =>
      (step_nil s hscript).trans (cycle_exec hrun (State.fetch_in s hpc) hdecode),
    fun s _ hscript => step_cons s hscript,
    step_nil⟩

/-- Settles O10: the decoder fails on the advanced and ticked state, the fetch before both. -/
theorem fetchAndDispatchFaults : Obligations.FetchAndDispatchFaults := by
  refine ⟨fun s hscript hrun hpc w hw hdecode => ?undefined, fun s hscript hrun hpc => ?fetch⟩
  case undefined =>
    subst hw
    rw [step_nil s hscript, cycle_running s hrun,
      runningCycle_undefined s (State.fetch_in s hpc) hdecode]
    rfl
  case fetch =>
    rw [step_nil s hscript, cycle_running s hrun,
      runningCycle_fetchFault s (State.fetch_out s hpc)]
    rfl

/-- A cycle that is not in Running changes nothing (R126, R127). -/
theorem cycle_of_ne_running {s : State} (h : s.run ≠ .running) : cycle s = .next s := by
  cases hrun : s.run with
  | running => exact absurd hrun h
  | awaitingKey x => exact cycle_awaiting s hrun
  | faulted kind => exact cycle_faulted s hrun

/-- Settles O11: both run states other than Running are idle. -/
theorem idleCyclesChangeNothing : Obligations.IdleCyclesChangeNothing :=
  ⟨fun s _ hrun => cycle_awaiting s hrun, fun s _ hrun => cycle_faulted s hrun,
    fun s hscript hrun => (step_nil s hscript).trans (cycle_of_ne_running hrun)⟩

/-! ### RET and CALL nnn -/

/-- The entry most recently pushed has the highest index (R24). -/
theorem State.stackEntry_last {s : State} {a : Word} {rest : List Word}
    (h : s.stack = a :: rest) : s.stackEntry rest.length = some a := by
  rw [State.stackEntry, h, List.reverse_cons, List.getElem?_append_right (by simp)]
  simp

/-- The entries below it are those of the stack without it. -/
theorem State.stackEntry_of_lt {s t : State} {a : Word} {j : Nat} (h : s.stack = a :: t.stack)
    (hj : j < t.sp) : s.stackEntry j = t.stackEntry j := by
  rw [State.stackEntry, State.stackEntry, h, List.reverse_cons,
    List.getElem?_append_left (List.length_reverse.symm ▸ hj)]

/-- Settles O24: the top of the stack is its entry of highest index, and what is left is the entries
below. -/
theorem retReturnsOrUnderflows : Obligations.RetReturnsOrUnderflows := by
  refine ⟨encodedAs_ret, fun s => ⟨fun hsp => ?returns, fun hsp => ?underflows⟩⟩
  case returns =>
    obtain ⟨a, rest, hstack⟩ := List.exists_cons_of_length_pos hsp
    have hrest : s.sp - 1 = rest.length := by rw [State.sp, hstack, List.length_cons]; rfl
    refine ⟨_, execRet_cons s hstack, ?_, hrest.symm,
      fun j hj => (State.stackEntry_of_lt hstack hj).symm, rfl, fun _ => rfl⟩
    rw [hrest]
    exact State.stackEntry_last hstack
  case underflows => exact ⟨_, execRet_nil s (List.length_eq_zero_iff.1 hsp), rfl⟩

/-- Settles O26: the entry pushed has the index of the old SP, and the old entries lie below it. -/
theorem callPushesOrOverflows : Obligations.CallPushesOrOverflows := by
  refine ⟨encodedAs_call, fun nnn s => ⟨fun hsp => ?pushes, fun hsp => ?overflows⟩⟩
  case pushes =>
    exact ⟨_, execCall_free s nnn hsp, absAddr_toNat nnn, rfl, State.stackEntry_last rfl,
      fun j hj => State.stackEntry_of_lt rfl hj, rfl, fun _ => rfl⟩
  case overflows => exact ⟨_, execCall_full s nnn hsp, rfl⟩

/-! ### SE Vx, Vy and SNE Vx, Vy -/

theorem exec_seReg (x y n : Nibble) (s : State) :
    exec (.seReg x y n) s = .next (s.skipIf (s.getV x == s.getV y)) := rfl

theorem exec_sneReg (x y n : Nibble) (s : State) :
    exec (.sneReg x y n) s = .next (s.skipIf (s.getV x != s.getV y)) := rfl

/-- Settles O29: both are a conditional skip, on the comparison of the registers and on its
opposite. -/
theorem registerSkips : Obligations.RegisterSkips :=
  ⟨encodedAs_seReg, encodedAs_sneReg, fun x y n s =>
    ⟨⟨_, exec_seReg x y n s, State.skipIf_beq_pc _ _ s, onlyPc_skipIf _ s⟩,
      ⟨_, exec_sneReg x y n s, State.skipIf_bne_pc _ _ s, onlyPc_skipIf _ s⟩⟩⟩

/-! ### RND Vx, kk -/

theorem exec_rnd (x : Nibble) (kk : Byte) (s : State) :
    exec (.rnd x kk) s = .next (s.draw.2.setV x (s.draw.1 &&& kk)) := rfl

/-- Only a cycle that executes a Cxkk draws. -/
theorem cycle_draws {s t : State} (hcycle : cycle s = .next t)
    (h : ∀ w x kk, s.fetch = .inl w → decodeWord w ≠ some (.rnd x kk)) :
    t.draws = s.draws ∧ t.drawCount = s.drawCount := by
  obtain ⟨-, rfl⟩ | ⟨-, a, -, rfl⟩ | ⟨-, w, -, -, rfl⟩ | ⟨-, w, i, hfetch, hdecode, hexec⟩ :=
    cycle_cases s hcycle
  · exact ⟨rfl, rfl⟩
  · exact ⟨rfl, rfl⟩
  · exact ⟨rfl, rfl⟩
  · exact (mayChange_of_exec hexec).draws_eq fun x kk hi => h w x kk hfetch (hi ▸ hdecode)

/-- Settles O32: a draw touches the provider's fields alone, and no other instruction has them among
the parts it may change. -/
theorem rndLoadsMaskedDraw : Obligations.RndLoadsMaskedDraw := by
  refine ⟨encodedAs_rnd, fun x kk s => ⟨_, s.draw.1, exec_rnd x kk s, ?_⟩, fun i s hi => ?_,
    fun s hs => ?_⟩
  · rw [State.draw_snd, State.draw_fst]
    exact ⟨fun b rest hdraws => by rw [hdraws, List.headD_cons],
      fun hdraws => by rw [hdraws, List.headD_nil], fun q => State.getV_setV _ x q _, rfl,
      fun _ => rfl⟩
  · obtain ⟨t, hexec, hframe, -⟩ := exec_next s i
    exact ⟨t, hexec, hframe.draws_eq hi⟩
  · obtain ⟨t, hcycle⟩ := cycle_next s
    exact ⟨t, hcycle, cycle_draws hcycle hs⟩

/-! ### SHR Vx and SHL Vx -/

theorem exec_shr (x y : Nibble) (s : State) :
    exec (.shr x y) s = .next (s.flagThenShift x (shiftOutRight (s.getV x)) false) := rfl

theorem exec_shl (x y : Nibble) (s : State) :
    exec (.shl x y) s = .next (s.flagThenShift x (shiftOutLeft (s.getV x)) true) := rfl

theorem shiftOutRight_toNat (b : Byte) : (shiftOutRight b).toNat = b.toNat % 2 :=
  (BitVec.toNat_and b 1).trans (Nat.and_one_is_mod b.toNat)

theorem shiftOutLeft_toNat (b : Byte) : (shiftOutLeft b).toNat = b.toNat / 128 := by
  have hb := b.isLt
  have hbit : (b >>> 7).toNat = b.toNat / 128 := by
    rw [BitVec.toNat_ushiftRight, Nat.shiftRight_eq_div_pow]
  rw [shiftOutLeft, BitVec.toNat_and, hbit]
  exact (Nat.and_one_is_mod _).trans (Nat.mod_eq_of_lt (by omega))

theorem shiftLeft_one_toNat (b : Byte) : (b <<< 1).toNat = b.toNat * 2 % 256 := by
  rw [BitVec.toNat_shiftLeft, Nat.shiftLeft_eq]

theorem ushiftRight_one_toNat (b : Byte) : (b >>> 1).toNat = b.toNat / 2 := by
  rw [BitVec.toNat_ushiftRight, Nat.shiftRight_eq_div_pow]

section

variable {x r : Nibble} (flag : Byte) (left : Bool) (s : State)

theorem onlyV_flagThenShift : OnlyV s (s.flagThenShift x flag left) :=
  ⟨State.flagThenShift_eq s x flag left, fun _ => rfl⟩

theorem State.flagThenShift_getV_same (hx : x ≠ vf) : (s.flagThenShift x flag left).getV x =
    if left then s.getV x <<< 1 else s.getV x >>> 1 := by
  rw [State.flagThenShift_getV, if_pos rfl, if_neg hx]

theorem State.flagThenShift_getV_vf (hx : x ≠ vf) :
    (s.flagThenShift x flag left).getV vf = flag := by
  rw [State.flagThenShift_getV, if_neg hx.symm, if_pos rfl]

/-- With x = 15 the flag itself is what is shifted (D19). -/
theorem State.flagThenShift_vf_getV : (s.flagThenShift vf flag left).getV vf =
    if left then flag <<< 1 else flag >>> 1 := by
  rw [State.flagThenShift_getV, if_pos rfl, if_pos rfl]

theorem State.flagThenShift_getV_of_ne (hx : r ≠ x) (hvf : r ≠ vf) :
    (s.flagThenShift x flag left).getV r = s.getV r := by
  rw [State.flagThenShift_getV, if_neg hx, if_neg hvf]

end

/-- Settles O37: the flag is written before the shift, so with x = 15 it is the flag, 0 or 1, that is
shifted. -/
theorem shiftsByOneInPlace : Obligations.ShiftsByOneInPlace := by
  refine ⟨encodedAs_shr, encodedAs_shl, fun x y s =>
    ⟨⟨_, exec_shr x y s, fun hx => ⟨?halved, ?lowBit⟩, fun hx => ?flagHalved,
        fun r => State.flagThenShift_getV_of_ne _ _ s, onlyV_flagThenShift _ _ s⟩,
      ⟨_, exec_shl x y s, fun hx => ⟨?doubled, ?highBit⟩, fun hx => ?flagDoubled,
        fun r => State.flagThenShift_getV_of_ne _ _ s, onlyV_flagThenShift _ _ s⟩⟩⟩
  case halved =>
    rw [State.flagThenShift_getV_same _ _ s hx]
    exact ushiftRight_one_toNat _
  case lowBit =>
    exact (congrArg _ (State.flagThenShift_getV_vf _ _ s hx)).trans (shiftOutRight_toNat _)
  case flagHalved =>
    subst hx
    refine (State.flagThenShift_vf_getV _ _ s).trans (BitVec.eq_of_toNat_eq ?_)
    refine (ushiftRight_one_toNat _).trans ?_
    rw [shiftOutRight_toNat]
    exact Nat.div_eq_of_lt (Nat.mod_lt _ (by decide))
  case doubled =>
    rw [State.flagThenShift_getV_same _ _ s hx]
    exact shiftLeft_one_toNat _
  case highBit =>
    exact (congrArg _ (State.flagThenShift_getV_vf _ _ s hx)).trans (shiftOutLeft_toNat _)
  case flagDoubled =>
    subst hx
    have hvf := (s.getV 0xF).isLt
    refine (congrArg _ (State.flagThenShift_vf_getV _ _ s)).trans ?_
    refine (shiftLeft_one_toNat _).trans ?_
    rw [shiftOutLeft_toNat]
    omega

/-! ### ADD I, Vx -/

theorem exec_addI (x : Nibble) (s : State) :
    exec (.addI x) s = .next (s.setIr (s.ir + wide (s.getV x))) := rfl

/-- Settles O39: the sum of two 16-bit words is Lean's own, modulo 65536. -/
theorem addIAddsRegister : Obligations.AddIAddsRegister := by
  refine ⟨encodedAs_addI, fun x s => ⟨_, exec_addI x s, ?_, onlyIr_setIr s _⟩⟩
  rw [State.setIr_ir, BitVec.toNat_add, wide_toNat]

/-! ### The keypad -/

/-- Settles O45: a register value is the number of a key, whose flag is the condition of the skip, or
it is above 15. -/
theorem keySkipsOrIndexFault : Obligations.KeySkipsOrIndexFault := by
  refine ⟨encodedAs_skp, encodedAs_sknp, fun x s => ⟨fun k hkey => ⟨?skp, ?sknp⟩, fun hout => ?out⟩⟩
  case skp => exact ⟨_, execSkp_key s hkey, State.skipIf_pc _ s, onlyPc_skipIf _ s⟩
  case sknp =>
    refine ⟨_, execSknp_key s hkey, ?_, onlyPc_skipIf _ s⟩
    simp only [State.skipIf_pc, Bool.not_eq_true', ← Bool.not_eq_true, ite_not]
  case out => exact ⟨⟨_, execSkp_out s hout, rfl⟩, ⟨_, execSknp_out s hout, rfl⟩⟩

theorem keyByte_toNat (k : Nibble) : (keyByte k).toNat = k.toNat :=
  BitVec.toNat_setWidth_of_le (by decide)

theorem exec_ldVxK (x : Nibble) (s : State) :
    exec (.ldVxK x) s = .next (s.setRun (.awaitingKey x)) := rfl

/-- Settles O46: the wait entered is the one that the next key_down ends. -/
theorem keyWaitAndArrival : Obligations.KeyWaitAndArrival :=
  ⟨encodedAs_ldVxK, fun x k s =>
    ⟨_, _, exec_ldVxK x s, rfl, State.setRun_byteAt s _,
      congrArg Host.Outcome.next (keyDown_awaiting k rfl),
      fun r => State.getV_setV _ x r _, keyByte_toNat k, fun j => State.keyAt_setKey _ k j true, rfl,
      fun _ => rfl⟩⟩

theorem keyDown_keyAt (k j : Nibble) (s : State) :
    (keyDown k s).keyAt j = if j = k then true else s.keyAt j := by
  by_cases hwait : ∃ x, s.run = .awaitingKey x
  · obtain ⟨x, hx⟩ := hwait
    rw [keyDown_awaiting k hx, State.setRun_keyAt, State.setV_keyAt, State.keyAt_setKey]
  · rw [keyDown_not_awaiting k (not_exists.1 hwait), State.keyAt_setKey]

/-- Settles O59: the flag is set in every run state, the rest is for the wait alone. -/
theorem keyDownSetsFlagAndEndsWait : Obligations.KeyDownSetsFlagAndEndsWait := by
  refine ⟨fun k s => ⟨_, rfl, fun j => keyDown_keyAt k j s, fun x hx => ?waiting, fun h => ?not⟩,
    fun c hc => by rw [hostKeyEvent, hc]; rfl⟩
  case waiting =>
    rw [keyDown_awaiting k hx]
    refine ⟨rfl, fun r hr => State.getV_setV_of_ne hr _ _, ?_, rfl⟩
    exact (congrArg _ (State.getV_setV_same x _ _)).trans (keyByte_toNat k)
  case not => rw [keyDown_not_awaiting k h]; rfl

/-! ### The timers -/

theorem exec_ldVxDT (x : Nibble) (s : State) : exec (.ldVxDT x) s = .next (s.setV x s.dt) := rfl

theorem exec_ldST (x : Nibble) (s : State) : exec (.ldST x) s = .next (s.setSt (s.getV x)) := rfl

/-- Settles O47: over a whole cycle the execute step finds DT ticked, and it leaves it so. -/
theorem ldVxDTReadsTickedTimer : Obligations.LdVxDTReadsTickedTimer := by
  refine ⟨encodedAs_ldVxDT, fun x s => ⟨_, exec_ldVxDT x s, fun r => State.getV_setV s x r _,
    onlyV_setV s x _⟩, fun x s w hrun hfetch hdecode => ?_⟩
  have hticked : (s.ready.setV x s.ready.dt).getV x = tickTimer s.dt := State.getV_setV_same x _ _
  refine ⟨_, (cycle_exec hrun hfetch hdecode).trans (exec_ldVxDT x s.ready), ?_, hticked.symm⟩
  rw [hticked, tickTimer_toNat]

/-- Settles O49: the step is the write of ST, and it touches no memory. -/
theorem ldSTSetsSoundTimer : Obligations.LdSTSetsSoundTimer :=
  ⟨encodedAs_ldST, fun x s => ⟨_, exec_ldST x s, rfl, State.setSt_byteAt s _⟩⟩

end Sys2Proof
end
